-- ==== Sys2Proof/Config.lean ====
section
/-! DEFINITION. The constants of `00_scope.md` R6 and the data bound of R7. None is configurable and none is state
(R231). The spec leaves no value open (`93_implementation_defined.md`), so this file holds no free value. -/

namespace Sys2Proof.Config

/-- `BASE`: buckets are multiples of 10. -/
abbrev base : Nat := 10
/-- `HALF`: the addend before the division, so that ties round up. -/
abbrev half : Nat := 5

/-- `M1, A1, C1`: modulus, multiplier, offset of hash 1. -/
abbrev m1 : Nat := 997
abbrev a1 : Nat := 31
abbrev c1 : Nat := 17
/-- `M2, A2, C2`: hash 2. -/
abbrev m2 : Nat := 991
abbrev a2 : Nat := 37
abbrev c2 : Nat := 23
/-- `M3, A3, C3`: hash 3. -/
abbrev m3 : Nat := 983
abbrev a3 : Nat := 41
abbrev c3 : Nat := 29

/-- `FOLD_MUL`: multiplier of `bucket` in the seed fold. -/
abbrev foldMul : Nat := 7
/-- `SEED_MOD`: modulus of the seed. -/
abbrev seedMod : Nat := 65536
/-- `LCG_A`, `LCG_C`, `LCG_M`: multiplier, increment and modulus 2^31 of the generator. -/
abbrev lcgA : Nat := 1103515245
abbrev lcgC : Nat := 12345
abbrev lcgM : Nat := 2147483648
/-- `LCG_SHIFT`: the right shift that selects the output byte. -/
abbrev lcgShift : Nat := 16

/-- `POS_MUL`, `POS_ADD`: the position key `(i*13 + 7) mod 256`. -/
abbrev posMul : Nat := 13
abbrev posAdd : Nat := 7

/-- `ALPHA`: alphabet size of the rotation. -/
abbrev alpha : Nat := 26

/-- `KEY_A`, `KEY_B`: the chunk keys the host's pseudo-instruction `SPLITX.F` supplies (R6, R78). -/
abbrev keyA : BitVec 8 := 0x66
abbrev keyB : BitVec 8 := 0x77

/-- `MAXLEN`: the greatest legal `LEN` (R7). -/
abbrev maxLen : Nat := 65535

end Sys2Proof.Config
end

