-- ==== Sys2Proof/Word.lean ====
section
/-! DEFINITION. The words of the block: bytes, messages, and the operand words at the widths `00_scope.md` R7 takes
(`CW` = 32, `BW` = 64, `OW` = 32). Arithmetic is done on `Nat` and `Int`, never on these words, because R8 makes every
operation exact. -/

namespace Sys2Proof

/-- The unit of data: 8 bits, unsigned value 0 to 255 (R7, R41). -/
abbrev Byte := BitVec 8

/-- A message: a finite byte sequence of any length, byte 0 sent first (R9, R23). -/
abbrev Message := List Byte

/-- The `count` operand, `CW` = 32 bits, unsigned (R7, R68). -/
abbrev Count := BitVec 32

/-- The `bucket` operand and result, `BW` = 64 bits, unsigned (R7, R68). -/
abbrev Bucket := BitVec 64

/-- The field of the rotation `offset`, `OW` = 32 bits, two's complement (R7, R65). -/
abbrev Offset := BitVec 32

/-- A 16-byte key operand: a keystream or a block key, `KSLEN` = `KEYLEN` = 16 (R6, R64). -/
abbrev Key := Vector Byte 16

end Sys2Proof
end

