-- ==== Sys2Proof/Machine/Flags.lean ====
section
/-! DEFINITION. The block has no flags and no condition codes (`10_state.md` R24). The outcome of a command is the status
byte of its own response, and this file holds those codes (`60_exceptions.md` R202). -/

namespace Sys2Proof

/-- The status of a response (R202). -/
inductive Status where
  /-- Well-formed and executed. -/
  | ok
  /-- Byte 0 is not 0x01 to 0x07. -/
  | illegalOpcode
  /-- A reserved header byte is not zero. -/
  | reservedNonzero
  /-- The `LEN` field exceeds `MAXLEN`. -/
  | badLen
  /-- The message length is not the one its format and `LEN` require. -/
  | sizeMismatch
  deriving DecidableEq, Repr

/-- The code carried in response byte 1 (R202). Codes 0x05 to 0xFF do not exist. -/
def Status.code : Status → Byte
  | .ok => 0x00
  | .illegalOpcode => 0x01
  | .reservedNonzero => 0x02
  | .badLen => 0x03
  | .sizeMismatch => 0x04

end Sys2Proof
end

