-- ==== Sys2Proof/Machine/Operands.lean ====
section
/-! DEFINITION. How operands and results are assembled from message bytes, and the only index computations the block
makes: byte order (`00_scope.md` R9, `20_memory.md` R42, R43), sign extension (R10), operand assembly
(`30_encoding.md` R68), the bytewise map of a data command (`20_memory.md` R40, R45) and its indices (R53). -/

namespace Sys2Proof

/-- Byte `k` of a message. Past the end it is 0; the decoder checks the length before it reads (R67, R72). -/
def byteAt (m : Message) (k : Nat) : Byte := m.getD k 0

/-- `le32(m, k)`: four bytes, the lowest offset least significant (R9, R42). -/
def le32 (m : Message) (k : Nat) : Nat :=
  (byteAt m k).toNat + 256 * (byteAt m (k + 1)).toNat + 65536 * (byteAt m (k + 2)).toNat
    + 16777216 * (byteAt m (k + 3)).toNat

/-- `le64(m, k)`: likewise over eight bytes (R9). -/
def le64 (m : Message) (k : Nat) : Nat := le32 m k + 4294967296 * le32 m (k + 4)

/-- `v` written as `n` bytes little-endian: byte `j` is `(v div 256^j) mod 256` (R71). -/
def leBytes (n v : Nat) : List Byte :=
  (List.range n).map fun j => BitVec.ofNat 8 (v / 256 ^ j % 256)

/-- `m[base .. base+len)` (R9). -/
def slice (m : Message) (base len : Nat) : List Byte := (m.drop base).take len

/-- The 16-byte key operand `k[j] = m[base + j]` (R64). -/
def keyAt (m : Message) (base : Nat) : Key := Vector.ofFn fun j : Fin 16 => byteAt m (base + j)

/-- `sext_N(v)` for an `N`-bit field value `v` (R10). -/
def sext (n v : Nat) : Int := if v < 2 ^ (n - 1) then (v : Int) else (v : Int) - (2 ^ n : Nat)

/-- The value of the `offset` operand, `sext_32` of its field (R65, R68). -/
def offsetValue (k : Offset) : Int := sext 32 k.toNat

/-- The byte of a 16-byte key that position `i` uses, `key[i mod 16]` (R53). -/
def keyByte (k : Key) (i : Nat) : Byte := k[i % 16]'(Nat.mod_lt i (by decide))

/-- A data command: byte `i` of the result is `f i` of byte `i` of the operand, for every `i`, each read once and written
once (R40, R45). -/
def mapBytes (f : Nat → Byte → Byte) (d : List Byte) : List Byte := d.mapIdx f

end Sys2Proof
end

