-- ==== Sys2Proof/Syntax.lean ====
section
/-! DEFINITION. The seven commands of QMR-1, one constructor per row of `spec/opcode_table.json`
(`30_encoding.md` R66). Operands are the assembled fields of R62 to R65; `LEN` is the length of the data operand. -/

namespace Sys2Proof

inductive Instr where
  /-- `QUANT count` (format C, R101). -/
  | quant (count : Count)
  /-- `KSGEN bucket` (format B, R113). -/
  | ksgen (bucket : Bucket)
  /-- `XSTREAM ks, data` (format K, R122). -/
  | xstream (ks : Key) (data : List Byte)
  /-- `BXOR key, data` (format K, R131). -/
  | bxor (key : Key) (data : List Byte)
  /-- `SPLITX ka, kb, data` (format D, R141). -/
  | splitx (ka kb : Byte) (data : List Byte)
  /-- `ROT offset, data` (format R, R155). -/
  | rot (offset : Offset) (data : List Byte)
  /-- `SEEDOFF data` (format D, R156). -/
  | seedoff (data : List Byte)
  deriving DecidableEq, Repr

end Sys2Proof
end

