-- ==== Sys2Proof/Decode.lean ====
section
/-! DEFINITION. The opcode map (`30_encoding.md` R66), the total decoder (the checks 1 to 4 of R67 in their order, then
the fields of R62 to R65), the encoder, and the reading of an opcode-table word. -/

namespace Sys2Proof

/-- The seven opcodes (R66). -/
inductive Opcode where
  | quant | ksgen | xstream | bxor | splitx | rot | seedoff
  deriving DecidableEq, Repr

/-- The five message formats (R60). -/
inductive Format where
  | c | b | d | k | r
  deriving DecidableEq, Repr

/-- Header byte 0 of each command (R66). -/
def Opcode.code : Opcode → Byte
  | .quant => 0x01
  | .ksgen => 0x02
  | .xstream => 0x03
  | .bxor => 0x04
  | .splitx => 0x05
  | .rot => 0x06
  | .seedoff => 0x07

/-- Decoding of byte 0: 0x00 and 0x08 to 0xFF select no command (R69). -/
def Opcode.ofByte (b : Byte) : Option Opcode :=
  match b.toNat with
  | 1 => some .quant
  | 2 => some .ksgen
  | 3 => some .xstream
  | 4 => some .bxor
  | 5 => some .splitx
  | 6 => some .rot
  | 7 => some .seedoff
  | _ => none

/-- The format the opcode alone determines (R60, R66). -/
def Opcode.format : Opcode → Format
  | .quant => .c
  | .ksgen => .b
  | .xstream => .k
  | .bxor => .k
  | .splitx => .d
  | .rot => .r
  | .seedoff => .d

/-- `match` of the opcode's row, over the header word (R66, `opcode_table.json`). -/
def Opcode.matchWord : Opcode → Nat
  | .quant => 0x00000001
  | .ksgen => 0x00000002
  | .xstream => 0x00000003
  | .bxor => 0x00000004
  | .splitx => 0x00000005
  | .rot => 0x00000006
  | .seedoff => 0x00000007

/-- `mask` of the opcode's row, over the header word (R66, `opcode_table.json`). -/
def Opcode.maskWord : Opcode → Nat
  | .quant => 0xFFFFFFFF
  | .ksgen => 0xFFFFFFFF
  | .xstream => 0xFFFFFFFF
  | .bxor => 0xFFFFFFFF
  | .splitx => 0xFF0000FF
  | .rot => 0xFFFFFFFF
  | .seedoff => 0xFFFFFFFF

/-- The opcode of a command. -/
def Instr.opcode : Instr → Opcode
  | .quant _ => .quant
  | .ksgen _ => .ksgen
  | .xstream _ _ => .xstream
  | .bxor _ _ => .bxor
  | .splitx _ _ _ => .splitx
  | .rot _ _ => .rot
  | .seedoff _ => .seedoff

/-- The bytes a format has before its data: all of it for the scalar formats (R60). -/
def Format.fixedLength : Format → Nat
  | .c => 8
  | .b => 12
  | .d => 8
  | .k => 24
  | .r => 12

/-- Whether a format carries a `LEN` field and data (R63 to R65). -/
def Format.hasData : Format → Bool
  | .c => false
  | .b => false
  | .d => true
  | .k => true
  | .r => true

/-- Check 3: `m[3]` is reserved in every command, `m[1]` and `m[2]` in every command but `SPLITX` (R61, R67, R69). -/
def reservedNonzero (op : Opcode) (m : Message) : Bool :=
  byteAt m 3 != 0 || (op != .splitx && (byteAt m 1 != 0 || byteAt m 2 != 0))

/-- Check 4, and the checks on `LEN`, in the order of R67; `none` when the length is legal. -/
def sizeError (f : Format) (m : Message) : Option Status :=
  if f.hasData then
    if m.length < 8 then some .sizeMismatch
    else if Config.maxLen < le32 m 4 then some .badLen
    else if m.length ≠ f.fixedLength + le32 m 4 then some .sizeMismatch
    else none
  else if m.length ≠ f.fixedLength then some .sizeMismatch
  else none

/-- The command whose fields a checked message carries (R62 to R65, R68). -/
def fields (op : Opcode) (m : Message) : Instr :=
  match op with
  | .quant => .quant (BitVec.ofNat 32 (le32 m 4))
  | .ksgen => .ksgen (BitVec.ofNat 64 (le64 m 4))
  | .xstream => .xstream (keyAt m 8) (slice m 24 (le32 m 4))
  | .bxor => .bxor (keyAt m 8) (slice m 24 (le32 m 4))
  | .splitx => .splitx (byteAt m 1) (byteAt m 2) (slice m 8 (le32 m 4))
  | .rot => .rot (BitVec.ofNat 32 (le32 m 8)) (slice m 12 (le32 m 4))
  | .seedoff => .seedoff (slice m 8 (le32 m 4))

/-- The total decoder: the command, or the status of the first check that fails (R67, R205). -/
def decode (m : Message) : Except Status Instr :=
  if m.length < 4 then .error .sizeMismatch
  else
    match Opcode.ofByte (byteAt m 0) with
    | none => .error .illegalOpcode
    | some op =>
      if reservedNonzero op m then .error .reservedNonzero
      else
        match sizeError op.format m with
        | some st => .error st
        | none => .ok (fields op m)

/-- The header of a command with reserved bytes 0 (R61). -/
def header (op : Opcode) : List Byte := [op.code, 0, 0, 0]

/-- The `LEN` field of a data operand (R63 to R65). -/
def lenField (d : List Byte) : List Byte := leBytes 4 d.length

/-- The message of a command, written from the format tables of R61 to R65. -/
def encode : Instr → Message
  | .quant count => header .quant ++ leBytes 4 count.toNat
  | .ksgen bucket => header .ksgen ++ leBytes 8 bucket.toNat
  | .xstream ks d => header .xstream ++ lenField d ++ ks.toList ++ d
  | .bxor key d => header .bxor ++ lenField d ++ key.toList ++ d
  | .splitx ka kb d => [Opcode.splitx.code, ka, kb, 0] ++ lenField d ++ d
  | .rot k d => header .rot ++ lenField d ++ leBytes 4 k.toNat ++ d
  | .seedoff d => header .seedoff ++ lenField d ++ d

/-- The one legal length of a message that begins as `m` does, bytes past its end read as 0 (R60); its own length where
the opcode is illegal, and without data where `LEN` is not legal. -/
def legalLength (m : Message) : Nat :=
  match Opcode.ofByte (byteAt m 0) with
  | none => m.length
  | some op =>
    if op.format.hasData && decide (le32 m 4 ≤ Config.maxLen) then op.format.fixedLength + le32 m 4
    else op.format.fixedLength

/-- The message an opcode-table word stands for: its `nbits` bits as bytes, bit 0 in byte 0 (R43), then bytes of zero up
to the length its format requires (log 2). -/
def tableMessage (nbits w : Nat) : Message :=
  let m := leBytes ((nbits + 7) / 8) (w % 2 ^ nbits)
  m ++ List.replicate (legalLength m - m.length) 0

/-- What the decoder reads from an opcode-table word; none where it refuses. -/
def decodeTableWord (nbits w : Nat) : Option Instr :=
  match decode (tableMessage nbits w) with
  | .ok i => some i
  | .error _ => none

end Sys2Proof
end

