-- ==== Sys2Proof/Machine/State.lean ====
section
/-! DEFINITION. The whole state of the block is the pair `(cmdq, rspq)` (`10_state.md` R23, R30). There are no registers,
program counter, flags, control registers or memory (R20, R21, R24 to R26, R28), and nothing is hidden (R29). -/

namespace Sys2Proof.Machine

/-- The state of the block (R23). Neither queue has a capacity (R23; log 9). -/
structure State where
  /-- Commands submitted and not yet executed, oldest first. -/
  cmdq : List Message
  /-- Responses produced and not yet collected, oldest first. -/
  rspq : List Message
  deriving DecidableEq, Repr

/-- Reasons the machine stops with a fault: none exists. Errors are status bytes in responses (R200, R204), and the block
is never stuck (R209); log 4. -/
inductive Fault where
  deriving DecidableEq, Repr

/-- Reasons an instruction has no meaning in the model. -/
inductive Refusal where
  /-- Raised only by an arm of `exec` for a command the model does not reach; safe. No arm raises it. -/
  | notModelled (mnemonic : String)
  deriving DecidableEq, Repr

/-- The state after reset: both queues empty (R30, R230, R231). -/
def State.reset : State := { cmdq := [], rspq := [] }

end Sys2Proof.Machine
end

