-- ==== Sys2Proof/Machine/Ops.lean ====
section
/-! DEFINITION. The named operations over the two queues, the layout of responses (`30_encoding.md` R70 to R72), and
`raise`, the one shared operation that answers a malformed command (`60_exceptions.md` R204). There is no trap to take and
so no return from one (R200, R208). -/

namespace Sys2Proof.Machine

/-- The response header: echo, status, 0, 0 (R70). -/
def responseHeader (echo : Byte) (st : Status) : List Byte := [echo, st.code, 0x00, 0x00]

/-- An `OK` response: the header, then the payload (R70, R71). -/
def okResponse (op : Opcode) (payload : List Byte) : Message := responseHeader op.code .ok ++ payload

/-- The payload of a data command: `LEN`, then the result bytes (R71). -/
def dataPayload (out : List Byte) : List Byte := leBytes 4 out.length ++ out

/-- The echo byte: byte 0 of the command, 0x00 for the empty message (R72). -/
def echoOf (m : Message) : Byte := byteAt m 0

/-- An error response is exactly the four header bytes (R204). -/
def errorResponse (m : Message) (st : Status) : Message := responseHeader (echoOf m) st

/-- Take the oldest command (R22); none when the step is not enabled. -/
def State.takeCommand (s : State) : Option (Message × State) :=
  match s.cmdq with
  | [] => none
  | m :: rest => some (m, { s with cmdq := rest })

/-- Append a response to the response queue (R22). -/
def State.answer (r : Message) (s : State) : State := { s with rspq := s.rspq ++ [r] }

/-- Answer a command that was executed. -/
def complete (r : Message) (s : State) : Host.Outcome State Fault Refusal := .next (s.answer r)

/-- `raise <Status>`: the command `m`, already removed from `cmdq`, is answered with a header-only response and nothing
else happens (R11, R204). -/
def raise (m : Message) (st : Status) (s : State) : Host.Outcome State Fault Refusal :=
  .next (s.answer (errorResponse m st))

/-- With an empty command queue the block does nothing (R216, R232). DESIGN CHOICE: answered as a step that changes
nothing, log 1. -/
def idle (s : State) : Host.Outcome State Fault Refusal := .next s

/-- The step is enabled exactly when the command queue is not empty (R22). -/
def State.enabled (s : State) : Bool := !s.cmdq.isEmpty

/-- `submit(m)`: append a message to the tail of `cmdq` (R27). -/
def State.submit (m : Message) (s : State) : State := { s with cmdq := s.cmdq ++ [m] }

/-- `collect()`: remove and return the oldest response; not enabled when there is none (R27). -/
def State.collect (s : State) : Option (Message × State) :=
  match s.rspq with
  | [] => none
  | r :: rest => some (r, { s with rspq := rest })

/-- `reset()`: both queues emptied, whatever they held (R27, R230). -/
def State.hostReset (_ : State) : State := State.reset

end Sys2Proof.Machine
end

