-- ==== Sys2Proof/Machine/BlockXor.lean ====
section
/-! DEFINITION. The block cipher ("AES-like" XOR) and the command `BXOR` (`43_block_xor.md`). The key is an operand; the
block holds none (R132). -/

namespace Sys2Proof.Machine

/-- `block_xor(data, key)` (R130). -/
def blockXor (d : List Byte) (key : Key) : List Byte := mapBytes (fun i b => b ^^^ keyByte key i) d

/-- The response to `BXOR key, data` (R71, R131). -/
def bxorResponse (key : Key) (d : List Byte) : Message := okResponse .bxor (dataPayload (blockXor d key))

/-- `BXOR key, data` (R131). -/
def execBxor (key : Key) (d : List Byte) (s : State) : Host.Outcome State Fault Refusal :=
  complete (bxorResponse key d) s

end Sys2Proof.Machine
end

