-- ==== Sys2Proof/Machine/ChunkXor.lean ====
section
/-! DEFINITION. The chunk splitter/XOR and the command `SPLITX` (`44_chunk_xor.md`). -/

namespace Sys2Proof.Machine

/-- The key of index `i` in a sequence of `n` bytes: chunk A is the first `n div 2` bytes, chunk B the rest (R140). -/
def chunkKey (ka kb : Byte) (n i : Nat) : Byte := if i < n / 2 then ka else kb

/-- `split_xor(data, key_a, key_b)` (R140). -/
def splitXor (d : List Byte) (ka kb : Byte) : List Byte :=
  mapBytes (fun i b => b ^^^ chunkKey ka kb d.length i) d

/-- The response to `SPLITX ka, kb, data`; its header does not repeat the keys (R71, R141). -/
def splitxResponse (ka kb : Byte) (d : List Byte) : Message := okResponse .splitx (dataPayload (splitXor d ka kb))

/-- `SPLITX ka, kb, data` (R141). -/
def execSplitx (ka kb : Byte) (d : List Byte) (s : State) : Host.Outcome State Fault Refusal :=
  complete (splitxResponse ka kb d) s

end Sys2Proof.Machine
end

