-- ==== Sys2Proof/Machine/Keystream.lean ====
section
/-! DEFINITION. The keystream generator and the command `KSGEN` (`41_keystream.md`). Products are exact (R8, R110). -/

namespace Sys2Proof.Machine

/-- The three hashes of a bucket (R110). -/
def hash1 (bucket : Nat) : Nat := (bucket * Config.a1 + Config.c1) % Config.m1
def hash2 (bucket : Nat) : Nat := (bucket * Config.a2 + Config.c2) % Config.m2
def hash3 (bucket : Nat) : Nat := (bucket * Config.a3 + Config.c3) % Config.m3

/-- The seed (R111). -/
def seed (bucket : Nat) : Nat :=
  (bucket * Config.foldMul + hash1 bucket + hash2 bucket + hash3 bucket) % Config.seedMod

/-- One step of the linear congruential generator (R112). -/
def lcgNext (s : Nat) : Nat := (s * Config.lcgA + Config.lcgC) % Config.lcgM

/-- The state `s_i` reached from `s_0` (R112). -/
def lcgState (s0 : Nat) : Nat → Nat
  | 0 => s0
  | i + 1 => lcgNext (lcgState s0 i)

/-- The output byte of a state, its bits 23:16 (R112). -/
def lcgByte (s : Nat) : Byte := BitVec.ofNat 8 (s / 2 ^ Config.lcgShift % 256)

/-- The expansion of a seed: `ks[j]` comes from `s_(j+1)` (R112). -/
def expand (s0 : Nat) : Key := Vector.ofFn fun j : Fin 16 => lcgByte (lcgState s0 (j + 1))

/-- `derive_keystream(bucket)`, for every bucket, multiple of 10 or not (R115, R116). -/
def deriveKeystream (bucket : Nat) : Key := expand (seed bucket)

/-- The response to `KSGEN bucket`: the 16 keystream bytes (R71, R113). -/
def ksgenResponse (bucket : Bucket) : Message := okResponse .ksgen (deriveKeystream bucket.toNat).toList

/-- `KSGEN bucket` (R113). -/
def execKsgen (bucket : Bucket) (s : State) : Host.Outcome State Fault Refusal := complete (ksgenResponse bucket) s

end Sys2Proof.Machine
end

