-- ==== Sys2Proof/Machine/Quantizer.lean ====
section
/-! DEFINITION. The quantizer and the command `QUANT` (`40_quantizer.md`). -/

namespace Sys2Proof.Machine

/-- `quantize(count) = ((count + 5) div 10) * 10` (R100). Negative counts do not exist (R104). -/
def quantize (count : Nat) : Nat := (count + Config.half) / Config.base * Config.base

/-- The response to `QUANT count`: the bucket as 8 bytes (R71, R101). -/
def quantResponse (count : Count) : Message := okResponse .quant (leBytes 8 (quantize count.toNat))

/-- `QUANT count` (R101). -/
def execQuant (count : Count) (s : State) : Host.Outcome State Fault Refusal := complete (quantResponse count) s

end Sys2Proof.Machine
end

