-- ==== Sys2Proof/Machine/Rotation.lean ====
section
/-! DEFINITION. The rotation cipher and the commands `ROT` and `SEEDOFF` (`45_rotation.md`). A byte is one character
(R157); the letter ranges are the spec's, from general knowledge (G1; log 8). -/

namespace Sys2Proof.Machine

/-- *Upper*: 0x41 to 0x5A (R150). -/
def isUpper (c : Byte) : Bool := decide (0x41 ≤ c.toNat) && decide (c.toNat ≤ 0x5A)

/-- *Lower*: 0x61 to 0x7A (R150). -/
def isLower (c : Byte) : Bool := decide (0x61 ≤ c.toNat) && decide (c.toNat ≤ 0x7A)

/-- A letter moved by `k` along the 26 letters that begin at `first`: `first + ((c - first + k) mod 26)`, the `mod` that of
R10 (R151, R152). The sum is exact, never wrapped (R155). -/
def rotLetter (first : Nat) (c : Byte) (k : Int) : Byte :=
  BitVec.ofNat 8 (first + (((c.toNat : Int) - first + k) % (Config.alpha : Int)).toNat)

/-- `rot_char(c, k)`, for an integer `k` of any sign and size (R151). -/
def rotChar (c : Byte) (k : Int) : Byte :=
  if isUpper c then rotLetter 0x41 c k
  else if isLower c then rotLetter 0x61 c k
  else c

/-- `rotate(text, k)` (R154). -/
def rotate (d : List Byte) (k : Int) : List Byte := mapBytes (fun _ c => rotChar c k) d

/-- The sum of the bytes of a seed, exact (R159). -/
def byteSum : List Byte → Nat
  | [] => 0
  | b :: bs => b.toNat + byteSum bs

/-- `seed_offset(seed)` (R159). -/
def seedOffset (d : List Byte) : Nat := byteSum d % Config.alpha

/-- The response to `ROT offset, data` (R71, R155). -/
def rotResponse (k : Offset) (d : List Byte) : Message := okResponse .rot (dataPayload (rotate d (offsetValue k)))

/-- `ROT offset, data` (R155). -/
def execRot (k : Offset) (d : List Byte) (s : State) : Host.Outcome State Fault Refusal :=
  complete (rotResponse k d) s

/-- The response to `SEEDOFF data`: the offset, 0 to 25, as 4 bytes (R71, R156). -/
def seedoffResponse (d : List Byte) : Message := okResponse .seedoff (leBytes 4 (seedOffset d))

/-- `SEEDOFF data` (R156). -/
def execSeedoff (d : List Byte) (s : State) : Host.Outcome State Fault Refusal := complete (seedoffResponse d) s

end Sys2Proof.Machine
end

