-- ==== Sys2Proof/Machine/StreamXor.lean ====
section
/-! DEFINITION. The positional stream cipher and the command `XSTREAM` (`42_stream_xor.md`). -/

namespace Sys2Proof.Machine

/-- `position_key(i) = (i*13 + 7) mod 256`; the index is never reduced before the multiplication (R120). -/
def positionKey (i : Nat) : Byte := BitVec.ofNat 8 ((i * Config.posMul + Config.posAdd) % 256)

/-- `xor_stream(data, keystream)` (R121). The index origin is 0 at the first byte (R123). -/
def xorStream (d : List Byte) (ks : Key) : List Byte :=
  mapBytes (fun i b => b ^^^ keyByte ks i ^^^ positionKey i) d

/-- The response to `XSTREAM ks, data` (R71, R122). -/
def xstreamResponse (ks : Key) (d : List Byte) : Message := okResponse .xstream (dataPayload (xorStream d ks))

/-- `XSTREAM ks, data` (R122). -/
def execXstream (ks : Key) (d : List Byte) (s : State) : Host.Outcome State Fault Refusal :=
  complete (xstreamResponse ks d) s

end Sys2Proof.Machine
end

