-- ==== Sys2Proof/Machine/Dispatch.lean ====
section
/-! DEFINITION. One arm per command, each one direct call of its meaning (`30_encoding.md` R66, R67 check 5). -/

namespace Sys2Proof.Machine

def exec (i : Instr) (s : State) : Host.Outcome State Fault Refusal :=
  match i with
  | .quant count => Sys2Proof.Machine.execQuant count s
  | .ksgen bucket => Sys2Proof.Machine.execKsgen bucket s
  | .xstream ks d => Sys2Proof.Machine.execXstream ks d s
  | .bxor key d => Sys2Proof.Machine.execBxor key d s
  | .splitx ka kb d => Sys2Proof.Machine.execSplitx ka kb d s
  | .rot k d => Sys2Proof.Machine.execRot k d s
  | .seedoff d => Sys2Proof.Machine.execSeedoff d s

end Sys2Proof.Machine
end

