-- ==== Sys2Proof/Machine/Step.lean ====
section
/-! DEFINITION. One step of the block (`10_state.md` R22): take the oldest command, decode it, and either execute it or
answer it with the status of the check it fails (`30_encoding.md` R67). -/

namespace Sys2Proof.Machine

def step (s : State) : Host.Outcome State Fault Refusal :=
  match s.takeCommand with
  | none => idle s
  | some (m, s') =>
    match decode m with
    | .ok i => exec i s'
    | .error st => raise m st s'

/-- The message of an opcode-table word put at the head of `cmdq`, where the next step takes its command (log 2). -/
def State.withFetchWord (s : State) (nbits w : Nat) : State :=
  { s with cmdq := tableMessage nbits w :: s.cmdq }

end Sys2Proof.Machine
end

