-- ==== Sys2Proof/Machine/Assembler.lean ====
section
/-! DEFINITION. The assembler and the programs of the spec (`30_encoding.md` R76 to R79): lines with their operands, the
assembler's checks, the two pseudo-instructions, `RAW`, and the running of a program by the host: build, `submit`, step,
`collect`, bind. The text of a line is read in `Machine/AsmText.lean`. A program has no labels and no control flow (R79,
R80). Operand kinds and rejections: log 6. -/

namespace Sys2Proof.Machine

/-- A bound name, the characters after `%` (R76). -/
abbrev Name := List Char

/-- A bound value: an integer (bucket, offset) or a byte sequence (keystream, data) (R76). -/
inductive Value where
  | int (v : Int)
  | bytes (d : List Byte)
  deriving DecidableEq, Repr

/-- An operand of a line: a literal, or a name bound by an earlier line (R76, R77). -/
inductive Operand where
  | lit (v : Value)
  | name (x : Name)
  deriving DecidableEq, Repr

/-- The line forms of R76, `RAW` of R77 and the pseudo-instructions of R78. -/
inductive AsmCommand where
  | quant (count : Operand)
  | ksgen (bucket : Operand)
  | xstream (ks data : Operand)
  | bxor (key data : Operand)
  | splitx (ka kb data : Operand)
  | rot (offset data : Operand)
  | seedoff (data : Operand)
  | splitxF (data : Operand)
  | unrot (offset data : Operand)
  | raw (m : Message)
  deriving DecidableEq, Repr

/-- A line: `%name = command`, or a command alone (R76). -/
structure Line where
  bind : Option Name
  command : AsmCommand
  deriving DecidableEq, Repr

/-- Why the assembler rejects a line (R76, R78). -/
inductive AsmError where
  /-- A `%name` that no earlier line has bound. -/
  | unbound
  /-- A value of the other kind. -/
  | wrongKind
  /-- A count outside 0 to 2^32 - 1. -/
  | countRange
  /-- A bucket outside 0 to 2^64 - 1. -/
  | bucketRange
  /-- An offset outside -2^31 to 2^31 - 1, or `UNROT` of -2^31. -/
  | offsetRange
  /-- A `ka` or `kb` outside 0 to 255. -/
  | keyByteRange
  /-- A `ks` or `key` that is not exactly 16 bytes. -/
  | keyLength
  /-- A data operand longer than 65535 bytes. -/
  | dataLength
  /-- The step gave no response to collect; no line of a program run from reset is so answered. -/
  | noResponse
  deriving DecidableEq, Repr

/-- The names bound so far, the latest first. -/
abbrev Bindings := List (Name × Value)

/-- The value of a name (R76). -/
def lookup (x : Name) : Bindings → Option Value
  | [] => none
  | (y, v) :: rest => if x = y then some v else lookup x rest

/-- An operand's value. -/
def resolve (env : Bindings) : Operand → Except AsmError Value
  | .lit v => .ok v
  | .name x =>
    match lookup x env with
    | none => .error .unbound
    | some v => .ok v

/-- An integer operand between two bounds, inclusive; outside them the given rejection (R76). -/
def intOperand (env : Bindings) (lo hi : Int) (e : AsmError) (a : Operand) : Except AsmError Int :=
  match resolve env a with
  | .error x => .error x
  | .ok (.bytes _) => .error .wrongKind
  | .ok (.int v) => if lo ≤ v ∧ v ≤ hi then .ok v else .error e

/-- A byte-sequence operand. -/
def bytesOperand (env : Bindings) (a : Operand) : Except AsmError (List Byte) :=
  match resolve env a with
  | .error x => .error x
  | .ok (.int _) => .error .wrongKind
  | .ok (.bytes d) => .ok d

/-- A data operand: at most 65535 bytes (R76). -/
def dataOperand (env : Bindings) (a : Operand) : Except AsmError (List Byte) := do
  let d ← bytesOperand env a
  if d.length ≤ Config.maxLen then .ok d else .error .dataLength

/-- A keystream or key operand: exactly 16 bytes (R76). -/
def keyOperand (env : Bindings) (a : Operand) : Except AsmError Key := do
  let d ← bytesOperand env a
  if h : d.toArray.size = 16 then .ok ⟨d.toArray, h⟩ else .error .keyLength

/-- A `ka` or `kb` operand: 0 to 255 (R76). -/
def keyByteOperand (env : Bindings) (a : Operand) : Except AsmError Byte := do
  let v ← intOperand env 0 255 .keyByteRange a
  .ok (BitVec.ofInt 8 v)

/-- An offset operand between `lo` and 2^31 - 1 (R76, R78). -/
def offsetOperand (env : Bindings) (lo : Int) (a : Operand) : Except AsmError Int :=
  intOperand env lo 2147483647 .offsetRange a

/-- The core command a line stands for, its pseudo-instructions expanded: `SPLITX.F data` is `SPLITX 0x66, 0x77, data` and
`UNROT offset, data` is `ROT -offset, data` (R76, R78). `RAW` stands for none. -/
def expandLine (env : Bindings) : AsmCommand → Except AsmError (Option Instr)
  | .quant c => do
    let v ← intOperand env 0 4294967295 .countRange c
    .ok (some (.quant (BitVec.ofInt 32 v)))
  | .ksgen b => do
    let v ← intOperand env 0 18446744073709551615 .bucketRange b
    .ok (some (.ksgen (BitVec.ofInt 64 v)))
  | .xstream ks d => do
    let k ← keyOperand env ks
    let x ← dataOperand env d
    .ok (some (.xstream k x))
  | .bxor key d => do
    let k ← keyOperand env key
    let x ← dataOperand env d
    .ok (some (.bxor k x))
  | .splitx ka kb d => do
    let a ← keyByteOperand env ka
    let b ← keyByteOperand env kb
    let x ← dataOperand env d
    .ok (some (.splitx a b x))
  | .rot k d => do
    let v ← offsetOperand env (-2147483648) k
    let x ← dataOperand env d
    .ok (some (.rot (BitVec.ofInt 32 v) x))
  | .seedoff d => do
    let x ← dataOperand env d
    .ok (some (.seedoff x))
  | .splitxF d => do
    let x ← dataOperand env d
    .ok (some (.splitx Config.keyA Config.keyB x))
  | .unrot k d => do
    let v ← offsetOperand env (-2147483647) k
    let x ← dataOperand env d
    .ok (some (.rot (BitVec.ofInt 32 (-v)) x))
  | .raw _ => .ok none

/-- The message a line builds: `LEN` set to the length of the data, reserved fields 0 (R76); `RAW` unchanged (R77). -/
def assemble (env : Bindings) (c : AsmCommand) : Except AsmError Message :=
  match c with
  | .raw m => .ok m
  | c =>
    match expandLine env c with
    | .error e => .error e
    | .ok none => .error .noResponse
    | .ok (some i) => .ok (encode i)

/-- The primary result of an `OK` response, by the command it answers (R76, last column); none for an error. -/
def primaryResult (r : Message) : Option Value :=
  if byteAt r 1 = Status.ok.code then
    match Opcode.ofByte (byteAt r 0) with
    | none => none
    | some .quant => some (.int (le64 r 4))
    | some .ksgen => some (.bytes (slice r 4 16))
    | some .seedoff => some (.int (sext 32 (le32 r 4)))
    | some _ => some (.bytes (slice r 8 (le32 r 4)))
  else none

/-- What a line binds, if its response is `OK`; a `RAW` line binds nothing (R76, R77). -/
def bindResult (l : Line) (r : Message) (env : Bindings) : Bindings :=
  match l.command with
  | .raw _ => env
  | _ =>
    match l.bind, primaryResult r with
    | some x, some v => (x, v) :: env
    | _, _ => env

/-- A program under way: the block, the host's bindings, and the responses collected, in order. -/
structure ProgState where
  machine : State
  env : Bindings
  responses : List Message
  deriving DecidableEq, Repr

/-- The start state of a program: the block after reset, nothing bound. -/
def ProgState.start : ProgState := { machine := State.reset, env := [], responses := [] }

/-- One line: build the message, `submit` it, let the block step, `collect` the response, bind the name (R79). -/
def runLine (l : Line) (p : ProgState) : Except AsmError ProgState :=
  match assemble p.env l.command with
  | .error e => .error e
  | .ok m =>
    match step (p.machine.submit m) with
    | .fault _ => .error .noResponse
    | .refused _ => .error .noResponse
    | .next s =>
      match s.collect with
      | none => .error .noResponse
      | some (r, s') =>
        .ok { machine := s', env := bindResult l r p.env, responses := p.responses ++ [r] }

/-- A program: its lines in order (R79). -/
def runProgram : List Line → ProgState → Except AsmError ProgState
  | [], p => .ok p
  | l :: ls, p =>
    match runLine l p with
    | .error e => .error e
    | .ok p' => runProgram ls p'

end Sys2Proof.Machine
end

