-- ==== Sys2Proof/Machine/HostSequences.lean ====
section
/-! DEFINITION. The host's sequences: the encode order, the decode order and the degenerate variant, as programs
(`46_laws_and_host_sequences.md` R180 to R182). The substitution, UTF-8 and the format check are the host's own and out of
scope (`00_scope.md` R4); the block enforces none of these orders. -/

namespace Sys2Proof.Machine

/-- A line that binds. -/
def bindLine (x : Name) (c : AsmCommand) : Line := { bind := some x, command := c }

def nameOff : Name := ['o', 'f', 'f']
def nameB1 : Name := ['b', '1']
def nameB2 : Name := ['b', '2']
def nameB3 : Name := ['b', '3']
def nameBk : Name := ['b', 'k']
def nameKs : Name := ['k', 's']
def nameOut : Name := ['o', 'u', 't']
def nameC1 : Name := ['c', '1']
def nameC2 : Name := ['c', '2']
def nameC3 : Name := ['c', '3']
def nameS1 : Name := ['s', '1']

/-- The encode lines from `ROT` on, the rotation offset an operand: steps 2 to 7 (R180, R184). -/
def encodeLines (off : Operand) (aesKey : Key) (count : Int) (x : List Byte) : List Line :=
  [ bindLine nameB1 (.rot off (.lit (.bytes x))),
    bindLine nameB2 (.bxor (.lit (.bytes aesKey.toList)) (.name nameB1)),
    bindLine nameB3 (.splitxF (.name nameB2)),
    bindLine nameBk (.quant (.lit (.int count))),
    bindLine nameKs (.ksgen (.name nameBk)),
    bindLine nameOut (.xstream (.name nameKs) (.name nameB3)) ]

/-- The whole encode order of R180, its offset derived once from the seed. -/
def encodeProgram (seedText : List Byte) (aesKey : Key) (count : Int) (x : List Byte) : List Line :=
  bindLine nameOff (.seedoff (.lit (.bytes seedText))) :: encodeLines (.name nameOff) aesKey count x

/-- The decode order of R181. -/
def decodeLines (off : Operand) (aesKey : Key) (count : Int) (blob : Operand) : List Line :=
  [ bindLine nameBk (.quant (.lit (.int count))),
    bindLine nameKs (.ksgen (.name nameBk)),
    bindLine nameC3 (.xstream (.name nameKs) blob),
    bindLine nameC2 (.splitxF (.name nameC3)),
    bindLine nameC1 (.bxor (.lit (.bytes aesKey.toList)) (.name nameC2)),
    bindLine nameS1 (.unrot off (.name nameC1)) ]

/-- The degenerate variant: one `SPLITX.F` over the raw payload, the same line to encode and to decode (R182). -/
def degenerateLines (x : List Byte) : List Line := [ bindLine nameOut (.splitxF (.lit (.bytes x))) ]

end Sys2Proof.Machine
end

