-- ==== Sys2Proof/Machine/Respond.lean ====
section
/-! DEFINITION. `respond`, the response to a message as a function of its bytes alone (`30_encoding.md` R67,
`10_state.md` R31). The step is stated to append exactly this (`Obligations.StepAppendsRespond`). -/

namespace Sys2Proof.Machine

/-- The response to a well-formed command (R67, check 5). -/
def responseTo : Instr → Message
  | .quant count => quantResponse count
  | .ksgen bucket => ksgenResponse bucket
  | .xstream ks d => xstreamResponse ks d
  | .bxor key d => bxorResponse key d
  | .splitx ka kb d => splitxResponse ka kb d
  | .rot k d => rotResponse k d
  | .seedoff d => seedoffResponse d

/-- `respond(m)`, total on every byte sequence (R31, R67). -/
def respond (m : Message) : Message :=
  match decode m with
  | .ok i => responseTo i
  | .error st => errorResponse m st

end Sys2Proof.Machine
end

