-- ==== Sys2Proof/Machine/Events.lean ====
section
/-! DEFINITION. The two agents together: the block's step and the host's three actions as the events of a run
(`10_state.md` R22, R27), with the history since the last reset that `20_memory.md` R49 speaks of. Every event is atomic
(R22, R45); log 7. -/

namespace Sys2Proof.Machine

/-- What can happen next (R22, R27). -/
inductive Event where
  /-- The block takes one step; enabled exactly when `cmdq` is not empty. -/
  | block
  /-- The host submits any byte sequence. -/
  | submit (m : Message)
  /-- The host collects the oldest response; enabled when there is one. -/
  | collect
  /-- The host resets the block. -/
  | reset
  deriving DecidableEq, Repr

/-- A state of the block beside what the host has submitted and collected since the last reset, in order. The two
histories are the observer's, not state of the block. -/
structure Observed where
  state : State
  submitted : List Message
  collected : List Message
  deriving DecidableEq, Repr

/-- The start of a run: the block after reset, nothing submitted and nothing collected. -/
def Observed.start : Observed := { state := State.reset, submitted := [], collected := [] }

/-- One event; none where it is not enabled. -/
def Observed.after (e : Event) (o : Observed) : Option Observed :=
  match e with
  | .block =>
    if o.state.enabled then
      match step o.state with
      | .next s => some { o with state := s }
      | .fault _ => none
      | .refused _ => none
    else none
  | .submit m => some { o with state := o.state.submit m, submitted := o.submitted ++ [m] }
  | .collect =>
    match o.state.collect with
    | none => none
    | some (r, s) => some { o with state := s, collected := o.collected ++ [r] }
  | .reset => some { state := o.state.hostReset, submitted := [], collected := [] }

/-- A run: the events in order; none as soon as one is not enabled. -/
def Observed.run : List Event → Observed → Option Observed
  | [], o => some o
  | e :: es, o =>
    match o.after e with
    | none => none
    | some o' => o'.run es

end Sys2Proof.Machine
end

