-- ==== Sys2Proof/Safety.lean ====
section
/-! DEFINITION. What the claims speak of: which byte sequences are responses the block may give
(`30_encoding.md` R70, R71, `60_exceptions.md` R202, R204), the invariant that the response queue holds only such, and the
accounting of messages that `20_memory.md` R49 asks for. -/

namespace Sys2Proof.Machine

/-- Byte 0 selects one of the seven commands (R66, R69). -/
abbrev LegalOpcode (m : Message) : Prop := 1 ≤ (byteAt m 0).toNat ∧ (byteAt m 0).toNat ≤ 7

/-- The reserved header bytes of the command byte 0 selects are zero (R61). -/
abbrev ReservedClear (m : Message) : Prop :=
  byteAt m 3 = 0 ∧ (byteAt m 0 = 0x05 ∨ (byteAt m 1 = 0 ∧ byteAt m 2 = 0))

/-- The command is of format D, K or R, and so has a `LEN` field and data (R60). -/
abbrev CarriesData (m : Message) : Prop := 3 ≤ (byteAt m 0).toNat

/-- The bytes of the format but for the data: 8 (C, D), 12 (B, R) or 24 (K) (R60). -/
def fixedBytes (m : Message) : Nat :=
  match (byteAt m 0).toNat with
  | 2 => 12
  | 3 => 24
  | 4 => 24
  | 6 => 12
  | _ => 8

/-- The payload of an `OK` response has the shape R71 gives its command: 8 bytes of bucket, at most 4294967300 (R103); 16
keystream bytes; `LEN` and that many bytes, `LEN` at most `MAXLEN`; a rotation offset 0 to 25 (R71). -/
def validPayload (op : Opcode) (p : List Byte) : Bool :=
  match op with
  | .quant => p.length == 8 && decide (le64 p 0 ≤ 4294967300) && le64 p 0 % 10 == 0
  | .ksgen => p.length == 16
  | .xstream => p.length == 4 + le32 p 0 && decide (le32 p 0 ≤ Config.maxLen)
  | .bxor => p.length == 4 + le32 p 0 && decide (le32 p 0 ≤ Config.maxLen)
  | .splitx => p.length == 4 + le32 p 0 && decide (le32 p 0 ≤ Config.maxLen)
  | .rot => p.length == 4 + le32 p 0 && decide (le32 p 0 ≤ Config.maxLen)
  | .seedoff => p.length == 4 && decide (le32 p 0 ≤ 25)

/-- A byte sequence the block may answer with: an error response of exactly four bytes with one of the four error codes, or
an `OK` response of one of the seven commands (R70, R71, R202, R204). -/
def validResponse (r : Message) : Bool :=
  decide (4 ≤ r.length) && byteAt r 2 == 0 && byteAt r 3 == 0 &&
    if byteAt r 1 == Status.ok.code then
      match Opcode.ofByte (byteAt r 0) with
      | none => false
      | some op => validPayload op (r.drop 4)
    else r.length == 4 && decide ((byteAt r 1).toNat ≤ 4)

/-- The invariant: every response waiting to be collected is one the block may give. -/
def State.Inv (s : State) : Prop := ∀ r ∈ s.rspq, validResponse r = true

/-- No response is lost, merged, reordered or duplicated since the last reset: what was collected, what waits, and what the
waiting commands will be answered are together `respond` of what was submitted, in order (R49). -/
def Observed.Accounted (o : Observed) : Prop :=
  o.submitted.map respond = o.collected ++ o.state.rspq ++ o.state.cmdq.map respond

/-- `n` steps of the block, stopping at a fault or a refusal. -/
def stepsFrom : Nat → State → Host.Outcome State Fault Refusal
  | 0, s => .next s
  | n + 1, s =>
    match step s with
    | .next s' => stepsFrom n s'
    | .fault r => .fault r
    | .refused r => .refused r

/-- One of the three XOR layers, with its key (R176). -/
def XorLayer (f : List Byte → List Byte) : Prop :=
  (∃ ks, f = fun d => xorStream d ks) ∨ (∃ key, f = fun d => blockXor d key) ∨
    (∃ ka kb, f = fun d => splitXor d ka kb)

end Sys2Proof.Machine
end

