-- ==== Sys2Proof/WellFormed.lean ====
section
/-! DEFINITION. Which terms of `Instr` a message can carry: the data operand has 0 to `MAXLEN` bytes (R7, R60). Every
other operand is legal at every value (R69, "Not reserved"), and the key length is a fact of its type. -/

namespace Sys2Proof

/-- The data operand of a command; empty for the two scalar formats. -/
def Instr.data : Instr → List Byte
  | .quant _ => []
  | .ksgen _ => []
  | .xstream _ d => d
  | .bxor _ d => d
  | .splitx _ _ d => d
  | .rot _ d => d
  | .seedoff d => d

/-- Well-formed: `LEN <= MAXLEN` (R7, R60). -/
def Instr.wellFormed (i : Instr) : Bool :=
  decide (i.data.length ≤ Config.maxLen)

end Sys2Proof
end

