-- ==== Sys2Proof/Certificates/Slice0/Obligations.lean ====
section
/-! DEFINITION. The statements for the provers, each the formalisation of numbered rules of `spec/`. A result statement
gives the next state `exec` answers and, with it, the frame: the command queue and every earlier response are as before.
Where a docstring says "inference of R<n>", the spec marks that rule, or the clause named, `[derived: ...]` as its own
inference from the command rules. -/

open Sys2Proof Sys2Proof.Machine

-- Reset, the step and the two agents

/-- R30: after reset both queues are empty, and that is the whole state. -/
def Obligations.ResetIsExactlyTheEmptyQueues : Prop :=
  ∀ s : State, s = State.reset ↔ s.cmdq = [] ∧ s.rspq = []

/-- R27, R230, and the inference of R234: a reset discards what either queue held, and a run after it is a run from the start
(the events of a run are log 7's). -/
def Obligations.ResetForgetsTheWholeHistory : Prop :=
  ∀ (o : Observed) (es : List Event),
    o.after .reset = some Observed.start ∧ o.run (.reset :: es) = Observed.start.run es

/-- R22, check 5 of R67: when the oldest command decodes to `i`, the step takes it out of `cmdq` and is `exec i`. -/
def Obligations.StepRunsTheDecodedCommand : Prop :=
  ∀ (s : State) (m : Message) (rest : List Message) (i : Instr),
    s.cmdq = m :: rest → decode m = .ok i → step s = exec i { cmdq := rest, rspq := s.rspq }

/-- R204: a command with an error status is answered with exactly four bytes and removed, and nothing else happens. -/
def Obligations.MalformedCommandGetsHeaderOnlyResponse : Prop :=
  ∀ (s : State) (m : Message) (rest : List Message) (st : Status),
    s.cmdq = m :: rest → decode m = .error st →
      st ≠ .ok ∧ step s = .next { cmdq := rest, rspq := s.rspq ++ [[byteAt m 0, st.code, 0x00, 0x00]] }

/-- R31: the step is total and deterministic: the response is a function of the message, for every message. -/
def Obligations.StepAppendsRespond : Prop :=
  (∀ (s : State) (m : Message) (rest : List Message),
    s.cmdq = m :: rest → step s = .next { cmdq := rest, rspq := s.rspq ++ [respond m] }) ∧
  (∀ i : Instr, i.wellFormed = true → ∀ s : State,
    exec i s = .next { cmdq := s.cmdq, rspq := s.rspq ++ [respond (encode i)] })

/-- The model's own choice, log 1 (DESIGN CHOICE), beside the words "With an empty command queue the block does nothing" of
`60_exceptions.md`: with an empty command queue `step` answers the same state. -/
def Obligations.StepOnEmptyQueueChangesNothing : Prop :=
  ∀ s : State, s.cmdq = [] → step s = .next s

/-- R22, R27: which events are enabled: the block's step exactly when `cmdq` is not empty, `collect` exactly when `rspq` is
not empty, `submit` and `reset` always (the events are log 7's, DEDUCED). -/
def Obligations.EventsAreEnabledExactlyWhen : Prop :=
  ∀ o : Observed,
    ((∃ o', o.after .block = some o') ↔ o.state.cmdq ≠ []) ∧
    ((∃ o', o.after .collect = some o') ↔ o.state.rspq ≠ []) ∧
    (∀ m, ∃ o', o.after (.submit m) = some o') ∧
    (∃ o', o.after .reset = some o')

/-- R200 and the inference of R209: no state makes the block fault or refuse (log 4, DEDUCED). -/
def Obligations.StepNeverStops : Prop :=
  ∀ s : State, ∃ t, step s = .next t

/-- The inference of R209, with R49: as many steps as there are commands empty `cmdq` and answer every one, in order. -/
def Obligations.DrainAnswersEveryCommandInOrder : Prop :=
  ∀ s : State, stepsFrom s.cmdq.length s = .next { cmdq := [], rspq := s.rspq ++ s.cmdq.map respond }

/-- R50: the response depends on the command's bytes and on nothing else in the state. -/
def Obligations.ResponseIndependentOfHistory : Prop :=
  ∀ (s s' t t' : State) (m : Message) (rest rest' : List Message),
    s.cmdq = m :: rest → s'.cmdq = m :: rest' → step s = .next t → step s' = .next t' →
      ∃ r, t.rspq = s.rspq ++ [r] ∧ t'.rspq = s'.rspq ++ [r] ∧ t.cmdq = rest ∧ t'.cmdq = rest'

/-- The accounting of R49 is kept by every event of a run (log 7), from any state that has it. -/
def Obligations.EventsKeepTheAccounting : Prop :=
  ∀ (e : Event) (o o' : Observed), o.Accounted → o.after e = some o' → o'.Accounted

/-- R49, over the runs of events of log 7 (DEDUCED): between two resets, the responses collected are a prefix of `respond` mapped over the commands submitted, whatever
the order of the events. -/
def Obligations.CollectedResponsesFollowSubmissions : Prop :=
  ∀ (es : List Event) (o : Observed),
    Observed.start.run es = some o →
      o.collected <+: o.submitted.map respond ∧
      o.submitted.map respond = o.collected ++ o.state.rspq ++ o.state.cmdq.map respond

/-- R70, R71, R202, R204: every step keeps the response queue free of anything but responses of the specified shapes. -/
def Obligations.StepKeepsResponsesValid : Prop :=
  ∀ s s' : State, s.Inv → step s = .next s' → s'.Inv

/-- The invariant holds after reset, and the host's three actions keep it. -/
def Obligations.HostActionsKeepResponsesValid : Prop :=
  State.reset.Inv ∧ ∀ s : State, s.Inv →
    (∀ m, (s.submit m).Inv) ∧ s.hostReset.Inv ∧ (∀ r s', s.collect = some (r, s') → s'.Inv ∧ validResponse r = true)

/-- R40, R70: whatever command runs, the commands waiting and every earlier response are as before, and one `OK` response with
the command's echo is appended. -/
def Obligations.ExecAppendsOneOkResponse : Prop :=
  ∀ (i : Instr) (s t : State), exec i s = .next t →
    t.cmdq = s.cmdq ∧ ∃ payload, t.rspq = s.rspq ++ [[i.opcode.code, 0x00, 0x00, 0x00] ++ payload]

-- Encoding and decoding

/-- Every well-formed command is read back from its message, with every operand at every value. -/
def Obligations.DecodeReadsBackEveryEncoding : Prop :=
  ∀ i : Instr, i.wellFormed = true → decode (encode i) = .ok i

/-- Every accepted message has exactly one reading: it is the encoding of the well-formed command it decodes to. -/
def Obligations.DecodeAcceptsOnlyEncodings : Prop :=
  ∀ (m : Message) (i : Instr), decode m = .ok i → i.wellFormed = true ∧ encode i = m

/-- A word of each command, written out from R61 to R65, decodes to the command. -/
def Obligations.WrittenOutWordsDecode : Prop :=
  decode [0x01, 0, 0, 0, 0x04, 0x01, 0, 0] = .ok (.quant 260) ∧
  decode [0x02, 0, 0, 0, 0x04, 0, 0, 0, 0x01, 0, 0, 0] = .ok (.ksgen 4294967300) ∧
  decode [0x03, 0, 0, 0, 1, 0, 0, 0, 0, 1, 2, 3, 4, 5, 6, 7, 8, 9, 10, 11, 12, 13, 14, 15, 0x66] =
    .ok (.xstream #v[0, 1, 2, 3, 4, 5, 6, 7, 8, 9, 10, 11, 12, 13, 14, 15] [0x66]) ∧
  decode [0x04, 0, 0, 0, 0, 0, 0, 0, 15, 14, 13, 12, 11, 10, 9, 8, 7, 6, 5, 4, 3, 2, 1, 0] =
    .ok (.bxor #v[15, 14, 13, 12, 11, 10, 9, 8, 7, 6, 5, 4, 3, 2, 1, 0] []) ∧
  decode [0x05, 0x66, 0x77, 0, 2, 0, 0, 0, 0x41, 0x42] = .ok (.splitx 0x66 0x77 [0x41, 0x42]) ∧
  decode [0x06, 0, 0, 0, 1, 0, 0, 0, 0xFB, 0xFF, 0xFF, 0xFF, 0x6B] = .ok (.rot (-5) [0x6B]) ∧
  decode [0x07, 0, 0, 0, 3, 0, 0, 0, 1, 2, 3] = .ok (.seedoff [1, 2, 3])

/-- R62: the scalar formats C and B, for every value of every operand byte. -/
def Obligations.ScalarFormatsDecode : Prop :=
  ∀ b0 b1 b2 b3 b4 b5 b6 b7 : Byte,
    (∃ count : Count, decode [0x01, 0, 0, 0, b0, b1, b2, b3] = .ok (.quant count) ∧
      count.toNat = b0.toNat + 256 * b1.toNat + 65536 * b2.toNat + 16777216 * b3.toNat) ∧
    (∃ bucket : Bucket, decode [0x02, 0, 0, 0, b0, b1, b2, b3, b4, b5, b6, b7] = .ok (.ksgen bucket) ∧
      bucket.toNat = b0.toNat + 256 * b1.toNat + 65536 * b2.toNat + 16777216 * b3.toNat
        + 4294967296 * (b4.toNat + 256 * b5.toNat + 65536 * b6.toNat + 16777216 * b7.toNat))

/-- R63: format D, live key bytes for `SPLITX` and zero ones for `SEEDOFF`. -/
def Obligations.DataFormatDecodes : Prop :=
  ∀ (ka kb l0 l1 l2 l3 : Byte) (d : List Byte),
    l0.toNat + 256 * l1.toNat + 65536 * l2.toNat + 16777216 * l3.toNat = d.length → d.length ≤ 65535 →
      decode ([0x05, ka, kb, 0, l0, l1, l2, l3] ++ d) = .ok (.splitx ka kb d) ∧
      decode ([0x07, 0, 0, 0, l0, l1, l2, l3] ++ d) = .ok (.seedoff d)

/-- R64: format K, 16 key bytes in order at offset 8, the data after them. -/
def Obligations.KeyFormatDecodes : Prop :=
  ∀ (l0 l1 l2 l3 : Byte) (k : Key) (d : List Byte),
    l0.toNat + 256 * l1.toNat + 65536 * l2.toNat + 16777216 * l3.toNat = d.length → d.length ≤ 65535 →
      decode ([0x03, 0, 0, 0, l0, l1, l2, l3] ++ k.toList ++ d) = .ok (.xstream k d) ∧
      decode ([0x04, 0, 0, 0, l0, l1, l2, l3] ++ k.toList ++ d) = .ok (.bxor k d)

/-- R65: format R, the offset a two's-complement 32-bit integer, `sext_32` of its field. -/
def Obligations.RotationFormatDecodes : Prop :=
  ∀ (l0 l1 l2 l3 o0 o1 o2 o3 : Byte) (d : List Byte),
    l0.toNat + 256 * l1.toNat + 65536 * l2.toNat + 16777216 * l3.toNat = d.length → d.length ≤ 65535 →
      ∃ k : Offset, decode ([0x06, 0, 0, 0, l0, l1, l2, l3, o0, o1, o2, o3] ++ d) = .ok (.rot k d) ∧
        let v := o0.toNat + 256 * o1.toNat + 65536 * o2.toNat + 16777216 * o3.toNat
        offsetValue k = if v < 2147483648 then (v : Int) else (v : Int) - 4294967296

/-- R60: the one legal length of each command's message, and the shortest and the longest command. -/
def Obligations.EncodedLengthIsTheFormats : Prop :=
  (∀ (c : Count) (b : Bucket) (k : Key) (ka kb : Byte) (o : Offset) (d : List Byte),
    (encode (.quant c)).length = 8 ∧ (encode (.ksgen b)).length = 12 ∧
    (encode (.xstream k d)).length = 24 + d.length ∧ (encode (.bxor k d)).length = 24 + d.length ∧
    (encode (.splitx ka kb d)).length = 8 + d.length ∧ (encode (.rot o d)).length = 12 + d.length ∧
    (encode (.seedoff d)).length = 8 + d.length) ∧
  (∀ (m : Message) (i : Instr), decode m = .ok i → 8 ≤ m.length ∧ m.length ≤ 65559)

/-- R66: the opcode map, and a header selects a command exactly when it matches the command's row under its mask. -/
def Obligations.HeaderSelectsCommandByMask : Prop :=
  ([Opcode.quant, .ksgen, .xstream, .bxor, .splitx, .rot, .seedoff].map fun op =>
      (op.code.toNat, op.format, op.matchWord, op.maskWord)) =
    [(0x01, .c, 0x00000001, 0xFFFFFFFF), (0x02, .b, 0x00000002, 0xFFFFFFFF), (0x03, .k, 0x00000003, 0xFFFFFFFF),
     (0x04, .k, 0x00000004, 0xFFFFFFFF), (0x05, .d, 0x00000005, 0xFF0000FF), (0x06, .r, 0x00000006, 0xFFFFFFFF),
     (0x07, .d, 0x00000007, 0xFFFFFFFF)] ∧
  (∀ (m : Message) (op : Opcode), 4 ≤ m.length →
    (le32 m 0 &&& op.maskWord = op.matchWord ↔
      Opcode.ofByte (byteAt m 0) = some op ∧ reservedNonzero op m = false)) ∧
  (∀ b : Byte, Opcode.ofByte b = none ↔ b = 0x00 ∨ 0x08 ≤ b.toNat)

/-- R203: the cause of each error status, exactly; what the error response records; the step that gives it. -/
def Obligations.ErrorStatusHasExactlyTheseCauses : Prop :=
  ∀ m : Message,
    (byteAt (respond m) 1 = 0x01 ↔ 4 ≤ m.length ∧ ¬ LegalOpcode m) ∧
    (byteAt (respond m) 1 = 0x02 ↔ 4 ≤ m.length ∧ LegalOpcode m ∧ ¬ ReservedClear m) ∧
    (byteAt (respond m) 1 = 0x03 ↔ 4 ≤ m.length ∧ LegalOpcode m ∧ ReservedClear m ∧ CarriesData m ∧
      8 ≤ m.length ∧ 65535 < le32 m 4) ∧
    (byteAt (respond m) 1 = 0x04 ↔ m.length < 4 ∨ (LegalOpcode m ∧ ReservedClear m ∧
      ((¬ CarriesData m ∧ m.length ≠ fixedBytes m) ∨ (CarriesData m ∧ m.length < 8) ∨
        (CarriesData m ∧ 8 ≤ m.length ∧ le32 m 4 ≤ 65535 ∧ m.length ≠ fixedBytes m + le32 m 4)))) ∧
    (byteAt (respond m) 1 ≠ 0x00 → respond m = [byteAt m 0, byteAt (respond m) 1, 0x00, 0x00]) ∧
    ∀ rest rs, step ⟨m :: rest, rs⟩ = .next ⟨rest, rs ++ [respond m]⟩

/-- R205: the status is that of the first check that fails, and the three examples. -/
def Obligations.FirstFailedCheckDecidesTheStatus : Prop :=
  (∀ m : Message, byteAt (respond m) 1 =
    if m.length < 4 then 0x04
    else if ¬ LegalOpcode m then 0x01
    else if ¬ ReservedClear m then 0x02
    else if (¬ CarriesData m ∧ m.length ≠ fixedBytes m) ∨ (CarriesData m ∧ m.length < 8) then 0x04
    else if CarriesData m ∧ 65535 < le32 m 4 then 0x03
    else if CarriesData m ∧ m.length ≠ fixedBytes m + le32 m 4 then 0x04
    else 0x00) ∧
  respond [0x09, 0xFF, 0x00, 0x01] = [0x09, 0x01, 0, 0] ∧
  respond [0x03, 0x00, 0x00, 0x01, 0x00] = [0x03, 0x02, 0, 0] ∧
  respond [0x03, 0, 0, 0, 0, 0, 0x01, 0] = [0x03, 0x03, 0, 0]

-- QUANT

/-- `QUANT` completes: the bucket `((count + 5) div 10) * 10`, 8 bytes little-endian (R101, R71). -/
def Obligations.QuantAnswersTheBucket : Prop :=
  ∀ (count : Count) (s : State), ∃ r,
    exec (.quant count) s = .next { cmdq := s.cmdq, rspq := s.rspq ++ [r] } ∧
      r.length = 12 ∧ r.take 4 = [0x01, 0, 0, 0] ∧ le64 r 4 = (count.toNat + 5) / 10 * 10

/-- Inference of R102: rounding down and up, bounds, monotonicity, idempotence, and where the result is 0. -/
def Obligations.QuantizeRoundsToTheNearestTen : Prop :=
  ∀ c : Nat,
    (c % 10 ≤ 4 → quantize c = 10 * (c / 10) ∧ quantize c = c - c % 10) ∧
    (5 ≤ c % 10 → quantize c = 10 * (c / 10 + 1) ∧ quantize c = c + (10 - c % 10)) ∧
    quantize c % 10 = 0 ∧ c ≤ quantize c + 4 ∧ quantize c ≤ c + 5 ∧
    (∀ b, c ≤ b → quantize c ≤ quantize b) ∧ quantize (quantize c) = quantize c ∧ (quantize c = 0 ↔ c ≤ 4)

/-- Inference of R103: the range of the result in the response bytes, and the four rows of its table. -/
def Obligations.QuantResultFitsTheField : Prop :=
  (∀ (count : Count) (s : State), ∃ r,
    exec (.quant count) s = .next { cmdq := s.cmdq, rspq := s.rspq ++ [r] } ∧
      le64 r 4 = quantize count.toNat ∧ le64 r 4 ≤ 4294967300 ∧
      byteAt r 9 = 0 ∧ byteAt r 10 = 0 ∧ byteAt r 11 = 0 ∧
      (count = 4294967295 → byteAt r 8 = 0x01) ∧ (count ≠ 4294967295 → byteAt r 8 = 0x00)) ∧
  exec (.quant 4294967284) State.reset = .next ⟨[], [[1, 0, 0, 0, 0xF0, 0xFF, 0xFF, 0xFF, 0, 0, 0, 0]]⟩ ∧
  exec (.quant 4294967285) State.reset = .next ⟨[], [[1, 0, 0, 0, 0xFA, 0xFF, 0xFF, 0xFF, 0, 0, 0, 0]]⟩ ∧
  exec (.quant 4294967294) State.reset = .next ⟨[], [[1, 0, 0, 0, 0xFA, 0xFF, 0xFF, 0xFF, 0, 0, 0, 0]]⟩ ∧
  exec (.quant 4294967295) State.reset = .next ⟨[], [[1, 0, 0, 0, 0x04, 0, 0, 0, 0x01, 0, 0, 0]]⟩

/-- Inference of R170: the counts of a bucket are exactly its window, ten counts, or five for bucket 0. -/
def Obligations.QuantizationWindow : Prop :=
  ∀ B : Nat, B % 10 = 0 →
    (∀ c, quantize c = B ↔ B ≤ c + 5 ∧ c ≤ B + 4) ∧
    {c | quantize c = B}.ncard = if B = 0 then 5 else 10

-- KSGEN

/-- `KSGEN` completes: byte `4 + j` of the response is bits 23:16 of `s_(j+1)`, for whatever sequence satisfies the recurrence
of R112 from the seed of R110 and R111 (R113). -/
def Obligations.KsgenAnswersTheKeystream : Prop :=
  ∀ (bucket : Bucket) (s : State) (b h1 h2 h3 : Nat) (sq : Nat → Nat),
    b = bucket.toNat → h1 = (b * 31 + 17) % 997 → h2 = (b * 37 + 23) % 991 → h3 = (b * 41 + 29) % 983 →
    sq 0 = (b * 7 + h1 + h2 + h3) % 65536 → (∀ i, sq (i + 1) = (sq i * 1103515245 + 12345) % 2147483648) →
      ∃ r, exec (.ksgen bucket) s = .next { cmdq := s.cmdq, rspq := s.rspq ++ [r] } ∧
        r.length = 20 ∧ r.take 4 = [0x02, 0, 0, 0] ∧
        ∀ j, j < 16 → (byteAt r (4 + j)).toNat = sq (j + 1) / 65536 % 256

/-- R110, R111, R112, R116: the hashes, the seed and their ranges, the expansion, and the keystream built from them, for every
bucket. -/
def Obligations.KeystreamFollowsHashesSeedAndRecurrence : Prop :=
  ∀ bucket : Nat,
    hash1 bucket = (bucket * 31 + 17) % 997 ∧ hash1 bucket ≤ 996 ∧
    hash2 bucket = (bucket * 37 + 23) % 991 ∧ hash2 bucket ≤ 990 ∧
    hash3 bucket = (bucket * 41 + 29) % 983 ∧ hash3 bucket ≤ 982 ∧
    seed bucket = (bucket * 7 + hash1 bucket + hash2 bucket + hash3 bucket) % 65536 ∧ seed bucket ≤ 65535 ∧
    ∀ sq : Nat → Nat, sq 0 = seed bucket → (∀ i, sq (i + 1) = (sq i * 1103515245 + 12345) % 2147483648) →
      (∀ i, sq i * 1103515245 + 12345 < 2 ^ 62) ∧
      (deriveKeystream bucket).toList = (List.range 16).map fun j => BitVec.ofNat 8 (sq (j + 1) / 65536 % 256)

/-- Inference of R114: the keystream depends on the bucket only through the seed; there are at most 65536 keystreams; two collisions; no
collision among the buckets 0 to 300. -/
def Obligations.KeystreamDependsOnSeedOnly : Prop :=
  (∀ (a b : Bucket) (s : State), seed a.toNat = seed b.toNat → exec (.ksgen a) s = exec (.ksgen b) s) ∧
  (Set.range deriveKeystream).ncard ≤ 65536 ∧
  seed 16080 = 49100 ∧ seed 119350 = 49100 ∧ seed 260 = 3504 ∧ seed 402810 = 3504 ∧
  ((List.range 31).map fun j => seed (10 * j)).Nodup

/-- Inference of R178: counts 402805 to 402814 give byte for byte what counts 255 to 264 give: the keystream, and the blob of the whole encode
sequence. -/
def Obligations.CollidingCountsAreInterchangeable : Prop :=
  ∀ c c' : Nat, 402805 ≤ c → c ≤ 402814 → 255 ≤ c' → c' ≤ 264 →
    quantize c = 402810 ∧ quantize c' = 260 ∧ deriveKeystream (quantize c) = deriveKeystream (quantize c') ∧
    ∀ (off : Operand) (key : Key) (x : List Byte) (p p' : ProgState),
      runProgram (encodeLines off key c x) ProgState.start = .ok p →
      runProgram (encodeLines off key c' x) ProgState.start = .ok p' →
        lookup nameOut p.env = lookup nameOut p'.env

/-- Inference of R177: `XSTREAM` under a bucket 0, 10, ..., 300 other than 260 differs from `XSTREAM` under 260 in every byte of any data, but
for buckets 30, 160, 210 and 290 at one position of each 16: 14, 12, 0 and 8. -/
def Obligations.WrongTestedBucketsDiffer : Prop :=
  ∀ (j : Nat) (d : List Byte) (i : Nat), j ≤ 30 → j ≠ 26 → i < d.length →
    (byteAt (xorStream d (deriveKeystream (10 * j))) i = byteAt (xorStream d (deriveKeystream 260)) i ↔
      (10 * j, i % 16) ∈ [(30, 14), (160, 12), (210, 0), (290, 8)])

-- XSTREAM, BXOR, SPLITX

/-- `XSTREAM` completes, each result byte as R121 says with the position key of R120. -/
def Obligations.XstreamAnswersEachByte : Prop :=
  ∀ (ks : Key) (d : List Byte) (s : State), ∃ r,
    exec (.xstream ks d) s = .next { cmdq := s.cmdq, rspq := s.rspq ++ [r] } ∧
      r.length = 8 + d.length ∧ r.take 4 = [0x03, 0, 0, 0] ∧ (d.length ≤ 65535 → le32 r 4 = d.length) ∧
      ∀ i (h : i < d.length), byteAt r (8 + i) =
        d[i] ^^^ ks[i % 16]'(Nat.mod_lt i (by decide)) ^^^ BitVec.ofNat 8 ((i * 13 + 7) % 256)

/-- R120: the position key and its first values; and its inference: period 256, each byte value once a period. -/
def Obligations.PositionKeyTakesEachByteOncePerPeriod : Prop :=
  (∀ i, (positionKey i).toNat = (i * 13 + 7) % 256) ∧
  (List.range 21).map (fun i => (positionKey i).toNat) =
    [7, 20, 33, 46, 59, 72, 85, 98, 111, 124, 137, 150, 163, 176, 189, 202, 215, 228, 241, 254, 11] ∧
  (∀ i, positionKey (i + 256) = positionKey i) ∧
  (∀ (start : Nat) (b : Byte), ∃! i, start ≤ i ∧ i < start + 256 ∧ positionKey i = b)

/-- Inference of R171: `XSTREAM` is an involution, on sequences and on messages. -/
def Obligations.XstreamTwiceIsTheIdentity : Prop :=
  (∀ (ks : Key) (d : List Byte), xorStream (xorStream d ks) ks = d) ∧
  (∀ (ks : Key) (d e : List Byte) (rest rs : List Message), d.length ≤ 65535 →
    step ⟨encode (.xstream ks d) :: rest, rs⟩ = .next ⟨rest, rs ++ [[0x03, 0, 0, 0] ++ leBytes 4 d.length ++ e]⟩ →
      step ⟨encode (.xstream ks e) :: rest, rs⟩ = .next ⟨rest, rs ++ [[0x03, 0, 0, 0] ++ leBytes 4 d.length ++ d]⟩)

/-- `BXOR` completes, each result byte as R130 says. -/
def Obligations.BxorAnswersEachByte : Prop :=
  ∀ (key : Key) (d : List Byte) (s : State), ∃ r,
    exec (.bxor key d) s = .next { cmdq := s.cmdq, rspq := s.rspq ++ [r] } ∧
      r.length = 8 + d.length ∧ r.take 4 = [0x04, 0, 0, 0] ∧ (d.length ≤ 65535 → le32 r 4 = d.length) ∧
      ∀ i (h : i < d.length), byteAt r (8 + i) = d[i] ^^^ key[i % 16]'(Nat.mod_lt i (by decide))

/-- Inference of R172: `BXOR` is an involution, on sequences and on messages. -/
def Obligations.BxorTwiceIsTheIdentity : Prop :=
  (∀ (key : Key) (d : List Byte), blockXor (blockXor d key) key = d) ∧
  (∀ (key : Key) (d e : List Byte) (rest rs : List Message), d.length ≤ 65535 →
    step ⟨encode (.bxor key d) :: rest, rs⟩ = .next ⟨rest, rs ++ [[0x04, 0, 0, 0] ++ leBytes 4 d.length ++ e]⟩ →
      step ⟨encode (.bxor key e) :: rest, rs⟩ = .next ⟨rest, rs ++ [[0x04, 0, 0, 0] ++ leBytes 4 d.length ++ d]⟩)

/-- `SPLITX` completes: the first `n div 2` bytes with `ka`, the remaining with `kb` (R140). -/
def Obligations.SplitxAnswersEachByte : Prop :=
  ∀ (ka kb : Byte) (d : List Byte) (s : State), ∃ r,
    exec (.splitx ka kb d) s = .next { cmdq := s.cmdq, rspq := s.rspq ++ [r] } ∧
      r.length = 8 + d.length ∧ r.take 4 = [0x05, 0, 0, 0] ∧ (d.length ≤ 65535 → le32 r 4 = d.length) ∧
      ∀ i (h : i < d.length),
        (i < d.length / 2 → byteAt r (8 + i) = d[i] ^^^ ka) ∧ (d.length / 2 ≤ i → byteAt r (8 + i) = d[i] ^^^ kb)

/-- Inference of R142: the corner cases of `SPLITX`. -/
def Obligations.SplitxCornerCases : Prop :=
  (∀ (ka kb : Byte) (s : State),
    exec (.splitx ka kb []) s = .next { cmdq := s.cmdq, rspq := s.rspq ++ [[0x05, 0, 0, 0, 0, 0, 0, 0]] }) ∧
  (∀ ka kb b : Byte, splitXor [b] ka kb = [b ^^^ kb]) ∧
  (∀ (ka kb : Byte) (a b : List Byte), a.length = b.length ∨ a.length + 1 = b.length →
    splitXor (a ++ b) ka kb = a.map (· ^^^ ka) ++ b.map (· ^^^ kb)) ∧
  (∀ (k : Byte) (d : List Byte), splitXor d k k = d.map (· ^^^ k)) ∧
  (∀ d : List Byte, splitXor d 0 0 = d)

/-- Inference of R173: `SPLITX` is an involution, on sequences and on messages. -/
def Obligations.SplitxTwiceIsTheIdentity : Prop :=
  (∀ (ka kb : Byte) (d : List Byte), splitXor (splitXor d ka kb) ka kb = d) ∧
  (∀ (ka kb : Byte) (d e : List Byte) (rest rs : List Message), d.length ≤ 65535 →
    step ⟨encode (.splitx ka kb d) :: rest, rs⟩ = .next ⟨rest, rs ++ [[0x05, 0, 0, 0] ++ leBytes 4 d.length ++ e]⟩ →
      step ⟨encode (.splitx ka kb e) :: rest, rs⟩ = .next ⟨rest, rs ++ [[0x05, 0, 0, 0] ++ leBytes 4 d.length ++ d]⟩)

/-- Inference of R176: each XOR layer is the XOR with a mask that does not depend on the data, any two commute, and a rotation does not
commute with every one. -/
def Obligations.XorLayersCommute : Prop :=
  (∀ f, XorLayer f → ∃ mask : Nat → Nat → Byte, ∀ d : List Byte,
    (f d).length = d.length ∧ ∀ i, i < d.length → byteAt (f d) i = byteAt d i ^^^ mask i d.length) ∧
  (∀ f g, XorLayer f → XorLayer g → ∀ d, f (g d) = g (f d)) ∧
  (∃ f, XorLayer f ∧ ∃ d k, f (rotate d k) ≠ rotate (f d) k)

/-- Inference of R175: the four data commands give exactly `LEN` result bytes, on sequences and in their responses. -/
def Obligations.DataCommandsPreserveLength : Prop :=
  ∀ (k : Key) (ka kb : Byte) (o : Offset) (n : Int) (d : List Byte),
    (xorStream d k).length = d.length ∧ (blockXor d k).length = d.length ∧ (splitXor d ka kb).length = d.length ∧
    (rotate d n).length = d.length ∧
    (d.length ≤ 65535 →
      ∀ i, i = .xstream k d ∨ i = .bxor k d ∨ i = .splitx ka kb d ∨ i = .rot o d →
        (respond (encode i)).length = 8 + d.length ∧ le32 (respond (encode i)) 4 = d.length)

-- ROT, SEEDOFF

/-- `ROT` completes, each byte as the three classes of R150 and R151 say (R155); `k.toInt` is the two's-complement value. -/
def Obligations.RotAnswersEachByte : Prop :=
  ∀ (k : Offset) (d : List Byte) (s : State), ∃ r,
    exec (.rot k d) s = .next { cmdq := s.cmdq, rspq := s.rspq ++ [r] } ∧
      r.length = 8 + d.length ∧ r.take 4 = [0x06, 0, 0, 0] ∧ (d.length ≤ 65535 → le32 r 4 = d.length) ∧
      ∀ i (h : i < d.length),
        let c := d[i].toNat
        let out := byteAt r (8 + i)
        (0x41 ≤ c ∧ c ≤ 0x5A → (out.toNat : Int) = 0x41 + ((c : Int) - 0x41 + k.toInt) % 26) ∧
        (0x61 ≤ c ∧ c ≤ 0x7A → (out.toNat : Int) = 0x61 + ((c : Int) - 0x61 + k.toInt) % 26) ∧
        (c < 0x41 ∨ (0x5A < c ∧ c < 0x61) ∨ 0x7A < c → out = d[i])

/-- R151: `rot_char` for every integer `k`, and the class of a byte never changes. -/
def Obligations.RotCharKeepsTheClass : Prop :=
  ∀ (c : Byte) (k : Int),
    (0x41 ≤ c.toNat ∧ c.toNat ≤ 0x5A →
      ((rotChar c k).toNat : Int) = 0x41 + ((c.toNat : Int) - 0x41 + k) % 26 ∧ isUpper (rotChar c k) = true) ∧
    (0x61 ≤ c.toNat ∧ c.toNat ≤ 0x7A →
      ((rotChar c k).toNat : Int) = 0x61 + ((c.toNat : Int) - 0x61 + k) % 26 ∧ isLower (rotChar c k) = true) ∧
    (c.toNat < 0x41 ∨ (0x5A < c.toNat ∧ c.toNat < 0x61) ∨ 0x7A < c.toNat → rotChar c k = c)

/-- Inference of R152: the source's doubled reduction gives the same byte, whichever convention its `mod` follows. -/
def Obligations.DoubledReductionIsTheSingleOne : Prop :=
  ∀ (c : Byte) (k x : Int), isUpper c = true → x = (c.toNat : Int) - 0x41 + k →
    ((rotChar c k).toNat : Int) = 0x41 + (x.fmod 26 + 26).fmod 26 ∧
    ((rotChar c k).toNat : Int) = 0x41 + (x.tmod 26 + 26).tmod 26

/-- Inference of R158: a rotation depends on its offset only modulo 26. -/
def Obligations.RotationDependsOnOffsetModAlphabet : Prop :=
  ∀ (d : List Byte) (k : Int),
    (∀ j : Int, rotate d k = rotate d (k + 26 * j)) ∧ (k % 26 = 0 → rotate d k = d) ∧
    rotate d (-k) = rotate d (26 - k % 26)

/-- Inference of R174: the negated offset inverts, on sequences and, for every offset whose negation is representable, on messages; for
-2147483648 the inverse is `ROT 24`; the same offset twice is the identity only for 0 and 13 modulo 26. -/
def Obligations.RotationIsInvertedByTheNegatedOffset : Prop :=
  (∀ (k : Int) (x : List Byte), rotate (rotate x k) (-k) = x) ∧
  (∀ (k k' : Offset) (d e : List Byte) (rest rs : List Message), d.length ≤ 65535 →
    (k ≠ 0x80000000 ∧ k' = -k) ∨ (k = 0x80000000 ∧ k' = 24) →
    step ⟨encode (.rot k d) :: rest, rs⟩ = .next ⟨rest, rs ++ [[0x06, 0, 0, 0] ++ leBytes 4 d.length ++ e]⟩ →
      step ⟨encode (.rot k' e) :: rest, rs⟩ = .next ⟨rest, rs ++ [[0x06, 0, 0, 0] ++ leBytes 4 d.length ++ d]⟩) ∧
  (∀ k : Int, (∀ x, rotate (rotate x k) k = x) ↔ k % 26 = 0 ∨ k % 26 = 13)

/-- `SEEDOFF` completes: the byte sum modulo 26, an integer 0 to 25, as 4 bytes (R156, R159). -/
def Obligations.SeedoffAnswersTheByteSum : Prop :=
  ∀ (d : List Byte) (s : State), ∃ r,
    exec (.seedoff d) s = .next { cmdq := s.cmdq, rspq := s.rspq ++ [r] } ∧
      r.length = 8 ∧ r.take 4 = [0x07, 0, 0, 0] ∧ le32 r 4 = (d.map BitVec.toNat).sum % 26 ∧ le32 r 4 ≤ 25 ∧
      byteAt r 5 = 0 ∧ byteAt r 6 = 0 ∧ byteAt r 7 = 0

/-- R156, corner cases: the result does not depend on the order of the seed's bytes. -/
def Obligations.SeedOffsetIgnoresTheOrder : Prop :=
  ∀ (d e : List Byte) (s : State), d.Perm e → exec (.seedoff d) s = exec (.seedoff e) s

/-- R160: the source's seed gives 1658 mod 26 = 20, not 5. -/
def Obligations.SourceSeedGivesTwenty : Prop :=
  let codes : List Byte := [80, 76, 65, 78, 84, 83, 95, 86, 83, 95, 90, 79, 77, 66, 73, 69, 83, 95, 50, 48, 50, 53]
  byteSum codes = 1658 ∧ seedOffset codes = 20 ∧ seedOffset codes ≠ 5 ∧
    exec (.seedoff codes) State.reset = .next ⟨[], [[0x07, 0, 0, 0, 0x14, 0, 0, 0]]⟩

-- The assembler and the host's sequences

/-- R78: the two pseudo-instructions are their expansions, and `UNROT` of -2147483648 is rejected. Which error a rejected line
answers is the model's own choice, log 6 (DESIGN CHOICE: operands are checked from left to right and the first that fails names
the rejection); the last clause, that it is `offsetRange` whatever the data operand is, rests on it, and so does the equality of
the errors in the first two. -/
def Obligations.PseudoInstructionsAreTheirExpansions : Prop :=
  (∀ (env : Bindings) (d : Operand),
    assemble env (.splitxF d) = assemble env (.splitx (.lit (.int 0x66)) (.lit (.int 0x77)) d)) ∧
  (∀ (env : Bindings) (k : Int) (d : Operand), -2147483647 ≤ k → k ≤ 2147483647 →
    assemble env (.unrot (.lit (.int k)) d) = assemble env (.rot (.lit (.int (-k))) d)) ∧
  (∀ (env : Bindings) (d : Operand), assemble env (.unrot (.lit (.int (-2147483648))) d) = .error .offsetRange)

/-- R76: which literal operands the assembler takes. -/
def Obligations.AssemblerTakesExactlyTheLegalRanges : Prop :=
  ∀ (env : Bindings) (v w : Int) (k d : List Byte),
    ((∃ m, assemble env (.quant (.lit (.int v))) = .ok m) ↔ 0 ≤ v ∧ v ≤ 4294967295) ∧
    ((∃ m, assemble env (.ksgen (.lit (.int v))) = .ok m) ↔ 0 ≤ v ∧ v ≤ 18446744073709551615) ∧
    ((∃ m, assemble env (.xstream (.lit (.bytes k)) (.lit (.bytes d))) = .ok m) ↔ k.length = 16 ∧ d.length ≤ 65535) ∧
    ((∃ m, assemble env (.bxor (.lit (.bytes k)) (.lit (.bytes d))) = .ok m) ↔ k.length = 16 ∧ d.length ≤ 65535) ∧
    ((∃ m, assemble env (.splitx (.lit (.int v)) (.lit (.int w)) (.lit (.bytes d))) = .ok m) ↔
      (0 ≤ v ∧ v ≤ 255) ∧ (0 ≤ w ∧ w ≤ 255) ∧ d.length ≤ 65535) ∧
    ((∃ m, assemble env (.rot (.lit (.int v)) (.lit (.bytes d))) = .ok m) ↔
      (-2147483648 ≤ v ∧ v ≤ 2147483647) ∧ d.length ≤ 65535) ∧
    ((∃ m, assemble env (.seedoff (.lit (.bytes d))) = .ok m) ↔ d.length ≤ 65535)

/-- Every message the assembler builds, but for `RAW`, is accepted by the decoder and is the line's command (R76, R77). -/
def Obligations.AssembledMessageCarriesItsCommand : Prop :=
  ∀ (env : Bindings) (c : AsmCommand) (m : Message), assemble env c = .ok m →
    c = .raw m ∨ ∃ i, expandLine env c = .ok (some i) ∧ i.wellFormed = true ∧ decode m = .ok i

/-- R79: a program's end state is the list of responses collected, one for each line, and the block keeps nothing. -/
def Obligations.ProgramLeavesTheBlockEmpty : Prop :=
  ∀ (ls : List Line) (p : ProgState), runProgram ls ProgState.start = .ok p →
    p.machine = State.reset ∧ p.responses.length = ls.length

/-- R180: the encode order computes the composition of the six transforms, the offset derived from the seed. -/
def Obligations.EncodeOrderComputesThePipeline : Prop :=
  ∀ (seedText : List Byte) (key : Key) (count : Nat) (x : List Byte),
    seedText.length ≤ 65535 → count ≤ 4294967295 → x.length ≤ 65535 →
      ∃ p, runProgram (encodeProgram seedText key count x) ProgState.start = .ok p ∧
        lookup nameOut p.env = some (.bytes
          (xorStream (splitXor (blockXor (rotate x (seedOffset seedText)) key) 0x66 0x77)
            (deriveKeystream (quantize count))))

/-- Inference of R184: the decode sequence with a count of the same bucket returns what the encode sequence was given. -/
def Obligations.DecodeOrderInvertsEncodeOrder : Prop :=
  ∀ (key : Key) (k : Int) (c c' : Nat) (x : List Byte),
    x.length ≤ 65535 → -2147483647 ≤ k → k ≤ 2147483647 → c ≤ 4294967295 → c' ≤ 4294967295 →
    quantize c = quantize c' →
      ∃ p blob q,
        runProgram (encodeLines (.lit (.int k)) key c x) ProgState.start = .ok p ∧
        lookup nameOut p.env = some (.bytes blob) ∧
        runProgram (decodeLines (.lit (.int k)) key c' (.lit (.bytes blob))) ProgState.start = .ok q ∧
        lookup nameS1 q.env = some (.bytes x)

/-- R182: the degenerate variant is its own inverse, and no count enters it. -/
def Obligations.DegenerateVariantTwiceIsTheIdentity : Prop :=
  ∀ x : List Byte, x.length ≤ 65535 →
    ∃ p y q,
      runProgram (degenerateLines x) ProgState.start = .ok p ∧ lookup nameOut p.env = some (.bytes y) ∧
      runProgram (degenerateLines y) ProgState.start = .ok q ∧ lookup nameOut q.env = some (.bytes x)
end

