-- ==== Sys2Proof/Laws/Bytes.lean ====
section
/-! SUPPORT. What the byte operations of `Machine/Operands.lean` can do, once each: reading a byte of a joined message,
writing and reading little-endian fields, the 16-byte key, and the bytewise map. -/

namespace Sys2Proof

@[simp] theorem byteAt_nil (k : Nat) : byteAt [] k = 0 := by simp [byteAt]

@[simp] theorem byteAt_cons_zero (b : Byte) (m : Message) : byteAt (b :: m) 0 = b := rfl

@[simp] theorem byteAt_cons_succ (b : Byte) (m : Message) (k : Nat) : byteAt (b :: m) (k + 1) = byteAt m k := rfl

theorem byteAt_eq_getElem {m : Message} {k : Nat} (h : k < m.length) : byteAt m k = m[k] := by
  simp [byteAt, h]

theorem byteAt_append_left {a b : Message} {k : Nat} (h : k < a.length) : byteAt (a ++ b) k = byteAt a k := by
  simp [byteAt, List.getD_eq_getElem?_getD, List.getElem?_append_left h]

theorem byteAt_append_right (a b : Message) (k : Nat) : byteAt (a ++ b) (a.length + k) = byteAt b k := by
  simp [byteAt, List.getD_eq_getElem?_getD, List.getElem?_append_right]

@[simp] theorem leBytes_length (n v : Nat) : (leBytes n v).length = n := by simp [leBytes]

theorem leBytes_four (v : Nat) : leBytes 4 v =
    [BitVec.ofNat 8 (v % 256), BitVec.ofNat 8 (v / 256 % 256), BitVec.ofNat 8 (v / 65536 % 256),
      BitVec.ofNat 8 (v / 16777216 % 256)] := by
  simp [leBytes, List.range_succ]

theorem leBytes_eight (v : Nat) : leBytes 8 v = leBytes 4 v ++ leBytes 4 (v / 4294967296) := by
  simp [leBytes, List.range_succ, Nat.div_div_eq_div_mul]

/-- A value written as `le32` and read back, wherever the field stands in the message (R9, R71). -/
theorem le32_leBytes (a b : Message) (v : Nat) (hv : v < 4294967296) : le32 (a ++ leBytes 4 v ++ b) a.length = v := by
  have h (k : Nat) (hk : k < 4) : byteAt (a ++ leBytes 4 v ++ b) (a.length + k) = byteAt (leBytes 4 v) k := by
    rw [List.append_assoc, byteAt_append_right, byteAt_append_left (by simpa using hk)]
  have h0 := h 0 (by decide)
  rw [Nat.add_zero] at h0
  rw [le32, h0, h 1 (by decide), h 2 (by decide), h 3 (by decide), leBytes_four]
  simp only [byteAt_cons_zero, byteAt_cons_succ, BitVec.toNat_ofNat]
  omega

/-- Likewise over eight bytes. -/
theorem le64_leBytes (a b : Message) (v : Nat) (hv : v < 18446744073709551616) :
    le64 (a ++ leBytes 8 v ++ b) a.length = v := by
  have low : le32 (a ++ leBytes 8 v ++ b) a.length = v % 4294967296 := by
    have e : leBytes 4 v = leBytes 4 (v % 4294967296) := by
      simp only [leBytes_four, List.cons.injEq, and_true]
      refine ⟨?_, ?_, ?_, ?_⟩ <;> congr 1 <;> omega
    have := le32_leBytes a (leBytes 4 (v / 4294967296) ++ b) (v % 4294967296) (by omega)
    rwa [← e, List.append_assoc, ← List.append_assoc (leBytes 4 v), ← leBytes_eight, ← List.append_assoc] at this
  have high : le32 (a ++ leBytes 8 v ++ b) (a.length + 4) = v / 4294967296 := by
    have := le32_leBytes (a ++ leBytes 4 v) b (v / 4294967296) (by omega)
    rwa [List.append_assoc a, ← leBytes_eight, List.length_append, leBytes_length] at this
  rw [le64, low, high]
  omega

theorem le32_lt (m : Message) (k : Nat) : le32 m k < 4294967296 := by
  simp only [le32]; omega

theorem le64_lt (m : Message) (k : Nat) : le64 m k < 18446744073709551616 := by
  have := le32_lt m k
  have := le32_lt m (k + 4)
  simp only [le64]; omega

/-- A 16-byte key written in a message and read back (R64). -/
theorem keyAt_toList (a b : Message) (k : Key) : keyAt (a ++ k.toList ++ b) a.length = k := by
  apply Vector.ext
  intro i hi
  have h : byteAt (a ++ k.toList ++ b) (a.length + i) = k[i] := by
    rw [List.append_assoc, byteAt_append_right, byteAt_append_left (by simpa using hi),
      byteAt_eq_getElem (by simpa using hi)]
    simp
  simpa [keyAt] using h

/-- Data written at the end of a message and read back (R63 to R65). -/
theorem slice_append (a d : Message) : slice (a ++ d) a.length d.length = d := by simp [slice]

@[simp] theorem slice_length (m : Message) (base len : Nat) : (slice m base len).length = min len (m.length - base) := by
  simp [slice]

/-- `sext_32` of a 32-bit field is its two's-complement value (R10, R65). -/
theorem offsetValue_eq_toInt (k : Offset) : offsetValue k = k.toInt := by
  have := k.isLt
  simp only [offsetValue, sext, BitVec.toInt_eq_toNat_cond]
  split <;> split <;> omega

@[simp] theorem mapBytes_length (f : Nat → Byte → Byte) (d : List Byte) : (mapBytes f d).length = d.length := by
  simp [mapBytes]

@[simp] theorem mapBytes_nil (f : Nat → Byte → Byte) : mapBytes f [] = [] := by simp [mapBytes]

/-- Byte `i` of a data command's result depends on byte `i` of its operand and on `i` (R45). -/
@[simp] theorem mapBytes_getElem (f : Nat → Byte → Byte) (d : List Byte) (i : Nat) (h : i < (mapBytes f d).length) :
    (mapBytes f d)[i] = f i (d[i]'(by simpa using h)) := by
  simp [mapBytes]

/-- Two passes of a data command are one pass of the composed byte functions. -/
theorem mapBytes_mapBytes (f g : Nat → Byte → Byte) (d : List Byte) :
    mapBytes f (mapBytes g d) = mapBytes (fun i b => f i (g i b)) d := by
  apply List.ext_getElem <;> simp

theorem mapBytes_congr {f g : Nat → Byte → Byte} {d : List Byte}
    (h : ∀ i (hi : i < d.length), f i d[i] = g i d[i]) : mapBytes f d = mapBytes g d := by
  apply List.ext_getElem
  · simp
  · intro i h1 h2
    simpa using h i (by simpa using h1)

theorem mapBytes_id (d : List Byte) : mapBytes (fun _ b => b) d = d := by
  apply List.ext_getElem <;> simp

end Sys2Proof
end

