-- ==== Sys2Proof/Laws/Decode.lean ====
section
/-! SUPPORT. What the decoder can answer, said once: each check of `30_encoding.md` R67 as a condition on the message. -/

namespace Sys2Proof

/-- Well-formed means at most `MAXLEN` bytes of data. -/
theorem wellFormed_iff {i : Instr} : i.wellFormed = true ↔ i.data.length ≤ 65535 := by
  simp [Instr.wellFormed]

/-- The length checks pass exactly when the message has the one legal length of its format (R60). -/
theorem sizeError_eq_none {f : Format} {m : Message} :
    sizeError f m = none ↔
      (f.hasData = true ∧ 8 ≤ m.length ∧ le32 m 4 ≤ 65535 ∧ m.length = f.fixedLength + le32 m 4) ∨
      (f.hasData = false ∧ m.length = f.fixedLength) := by
  cases h : f.hasData
  · simp [sizeError, h]
  · have e : Config.maxLen = 65535 := rfl
    simp only [sizeError, h, e, if_true]
    split_ifs <;> simp <;> omega

/-- What a failing length check answers, and when (R67, check 4). -/
theorem sizeError_eq_some {f : Format} {m : Message} {st : Status} :
    sizeError f m = some st ↔
      (st = .sizeMismatch ∧ ((f.hasData = false ∧ m.length ≠ f.fixedLength) ∨ (f.hasData = true ∧ m.length < 8) ∨
        (f.hasData = true ∧ 8 ≤ m.length ∧ le32 m 4 ≤ 65535 ∧ m.length ≠ f.fixedLength + le32 m 4))) ∨
      (st = .badLen ∧ f.hasData = true ∧ 8 ≤ m.length ∧ 65535 < le32 m 4) := by
  have e : Config.maxLen = 65535 := rfl
  cases h : f.hasData
  · by_cases hl : m.length = f.fixedLength <;> simp [sizeError, h, hl, eq_comm (a := st)]
  · by_cases h8 : m.length < 8
    · have : ¬ 8 ≤ m.length := by omega
      simp [sizeError, h, h8, this, eq_comm (a := st)]
    · have h8' : 8 ≤ m.length := by omega
      by_cases hb : 65535 < le32 m 4
      · have : ¬ le32 m 4 ≤ 65535 := by omega
        simp [sizeError, h, h8, h8', e, hb, this, eq_comm (a := st)]
      · have hb' : le32 m 4 ≤ 65535 := by omega
        by_cases hl : m.length = f.fixedLength + le32 m 4
        · have : ¬ f.fixedLength + le32 m 4 < 8 := by omega
          simp [sizeError, h, e, hb, hl, this]
        · simp [sizeError, h, h8, h8', e, hb, hb', hl, eq_comm (a := st)]

/-- The decoder accepts exactly when the four checks pass, and then answers the fields (R67). -/
theorem decode_eq_ok {m : Message} {i : Instr} :
    decode m = .ok i ↔
      ∃ op, 4 ≤ m.length ∧ Opcode.ofByte (byteAt m 0) = some op ∧ reservedNonzero op m = false ∧
        sizeError op.format m = none ∧ i = fields op m := by
  unfold decode
  by_cases h4 : m.length < 4
  · simp [h4]
  · cases ho : Opcode.ofByte (byteAt m 0) with
    | none => simp [h4]
    | some op =>
      cases hr : reservedNonzero op m <;> cases hs : sizeError op.format m <;>
        simp [h4, hr, hs, Nat.le_of_not_lt h4, eq_comm (a := i)]

/-- The decoder refuses with the status of the first check that fails (R67, R205). -/
theorem decode_eq_error {m : Message} {st : Status} :
    decode m = .error st ↔
      (m.length < 4 ∧ st = .sizeMismatch) ∨
      (4 ≤ m.length ∧ Opcode.ofByte (byteAt m 0) = none ∧ st = .illegalOpcode) ∨
      ∃ op, 4 ≤ m.length ∧ Opcode.ofByte (byteAt m 0) = some op ∧
        ((reservedNonzero op m = true ∧ st = .reservedNonzero) ∨
          (reservedNonzero op m = false ∧ sizeError op.format m = some st)) := by
  unfold decode
  by_cases h4 : m.length < 4
  · simp [h4, Nat.not_le_of_lt h4, eq_comm (a := st)]
  · cases ho : Opcode.ofByte (byteAt m 0) with
    | none => simp [h4, Nat.le_of_not_lt h4, eq_comm (a := st)]
    | some op =>
      cases hr : reservedNonzero op m <;> cases hs : sizeError op.format m <;>
        simp [h4, hr, hs, Nat.le_of_not_lt h4, eq_comm (a := st)]

/-- The opcode byte 0 selects is the one whose code it is (R66). -/
theorem ofByte_eq_some {b : Byte} {op : Opcode} : Opcode.ofByte b = some op ↔ b = op.code := by
  revert b
  cases op <;> decide

/-- Byte 0 selects no command exactly at 0x00 and 0x08 to 0xFF (R69). -/
theorem ofByte_eq_none {b : Byte} : Opcode.ofByte b = none ↔ b.toNat = 0 ∨ 8 ≤ b.toNat := by
  revert b
  decide

end Sys2Proof
end

