-- ==== Sys2Proof/Laws/State.lean ====
section
/-! SUPPORT. One lemma per field per update of the state, so that no later proof unfolds a record update. -/

namespace Sys2Proof.Machine

@[simp] theorem State.reset_cmdq : State.reset.cmdq = [] := rfl
@[simp] theorem State.reset_rspq : State.reset.rspq = [] := rfl
@[simp] theorem State.hostReset_eq (s : State) : s.hostReset = State.reset := rfl

@[simp] theorem State.answer_cmdq (r : Message) (s : State) : (s.answer r).cmdq = s.cmdq := rfl
@[simp] theorem State.answer_rspq (r : Message) (s : State) : (s.answer r).rspq = s.rspq ++ [r] := rfl

@[simp] theorem State.submit_cmdq (m : Message) (s : State) : (s.submit m).cmdq = s.cmdq ++ [m] := rfl
@[simp] theorem State.submit_rspq (m : Message) (s : State) : (s.submit m).rspq = s.rspq := rfl

@[simp] theorem State.takeCommand_nil (r : List Message) : State.takeCommand ⟨[], r⟩ = none := rfl
@[simp] theorem State.takeCommand_cons (m : Message) (rest r : List Message) :
    State.takeCommand ⟨m :: rest, r⟩ = some (m, ⟨rest, r⟩) := rfl

@[simp] theorem State.collect_nil (c : List Message) : State.collect ⟨c, []⟩ = none := rfl
@[simp] theorem State.collect_cons (r : Message) (c rest : List Message) :
    State.collect ⟨c, r :: rest⟩ = some (r, ⟨c, rest⟩) := rfl

@[simp] theorem State.enabled_iff (s : State) : s.enabled = true ↔ s.cmdq ≠ [] := by
  cases h : s.cmdq <;> simp [State.enabled, h]

@[ext] theorem State.ext' {s t : State} (hc : s.cmdq = t.cmdq) (hr : s.rspq = t.rspq) : s = t := by
  cases s; cases t; simp_all

end Sys2Proof.Machine
end

