-- ==== Sys2Proof/Laws/Ops.lean ====
section
/-! SUPPORT. What each shared operation can do, said once: completing and raising, one step, the bytes of a response. -/

namespace Sys2Proof.Machine

/-- Completing a command only appends its response. -/
theorem complete_next {r : Message} {s t : State} : complete r s = .next t ↔ t = s.answer r := by
  simp only [complete, Host.Outcome.next.injEq, eq_comm]

/-- Raising a status only appends the four-byte error response (R204). -/
theorem raise_next {m : Message} {st : Status} {s t : State} :
    raise m st s = .next t ↔ t = s.answer (errorResponse m st) := by
  simp only [raise, Host.Outcome.next.injEq, eq_comm]

/-- Every command completes with its response (R31, R203: no command can fail once its message is well-formed). -/
theorem exec_eq_complete (i : Instr) (s : State) : exec i s = complete (responseTo i) s := by
  cases i <;> rfl

/-- All a step can do: nothing on an empty queue, and otherwise the oldest command is taken and its response appended. -/
theorem step_cases (s : State) :
    (s.cmdq = [] ∧ step s = .next s) ∨
      ∃ m rest, s.cmdq = m :: rest ∧ step s = .next ⟨rest, s.rspq ++ [respond m]⟩ := by
  obtain ⟨c, r⟩ := s
  cases c with
  | nil => exact .inl ⟨rfl, rfl⟩
  | cons m rest =>
    refine .inr ⟨m, rest, rfl, ?_⟩
    simp only [step, State.takeCommand_cons, respond]
    cases decode m with
    | ok i => simp only [exec_eq_complete, complete, State.answer]
    | error st => rfl

@[simp] theorem okResponse_length (op : Opcode) (p : List Byte) : (okResponse op p).length = 4 + p.length := by
  simp [okResponse, responseHeader]; omega

@[simp] theorem okResponse_take (op : Opcode) (p : List Byte) : (okResponse op p).take 4 = [op.code, 0, 0, 0] := by
  simp [okResponse, responseHeader, Status.code]

@[simp] theorem okResponse_drop (op : Opcode) (p : List Byte) : (okResponse op p).drop 4 = p := by
  simp [okResponse, responseHeader]

@[simp] theorem errorResponse_length (m : Message) (st : Status) : (errorResponse m st).length = 4 := rfl

@[simp] theorem dataPayload_length (out : List Byte) : (dataPayload out).length = 4 + out.length := by
  simp [dataPayload]

/-- Byte `8 + i` of a data response is result byte `i` (R41, R71). -/
theorem okResponse_dataPayload_byteAt (op : Opcode) (out : List Byte) (i : Nat) :
    byteAt (okResponse op (dataPayload out)) (8 + i) = byteAt out i := by
  have := byteAt_append_right (responseHeader op.code .ok ++ leBytes 4 out.length) out i
  simpa [okResponse, dataPayload, responseHeader, ← List.append_assoc] using this

/-- The `LEN` field of a data response is the length of its result (R71). -/
theorem okResponse_dataPayload_len (op : Opcode) (out : List Byte) (h : out.length < 4294967296) :
    le32 (okResponse op (dataPayload out)) 4 = out.length := by
  have := le32_leBytes (responseHeader op.code .ok) out out.length h
  simpa [okResponse, dataPayload, responseHeader] using this

end Sys2Proof.Machine
end

