-- ==== Sys2Proof/Laws/PerInstr.lean ====
section
/-! SUPPORT. One statement per command about its encoding: the header word of the encoded message, masked as the command's
row of `spec/opcode_table.json` says, is the row's `match` (`30_encoding.md` R66). -/

namespace Sys2Proof.Laws.HeaderMatches

def Statement (i : Instr) : Prop :=
  le32 (encode i) 0 &&& i.opcode.maskWord = i.opcode.matchWord

theorem quant (count : Count) : Statement (.quant count) := by
  simp [Statement, encode, header, le32, Opcode.code, Instr.opcode, Opcode.maskWord, Opcode.matchWord]

theorem ksgen (bucket : Bucket) : Statement (.ksgen bucket) := by
  simp [Statement, encode, header, le32, Opcode.code, Instr.opcode, Opcode.maskWord, Opcode.matchWord]

theorem xstream (ks : Key) (d : List Byte) : Statement (.xstream ks d) := by
  simp [Statement, encode, header, le32, Opcode.code, Instr.opcode, Opcode.maskWord, Opcode.matchWord]

theorem bxor (key : Key) (d : List Byte) : Statement (.bxor key d) := by
  simp [Statement, encode, header, le32, Opcode.code, Instr.opcode, Opcode.maskWord, Opcode.matchWord]

theorem splitx (ka kb : Byte) (d : List Byte) : Statement (.splitx ka kb d) := by
  have keyBytesMasked (a b : Byte) : (5 + 256 * a.toNat + 65536 * b.toNat) &&& 4278190335 = 5 := by
    have ha := a.isLt
    have hb := b.isLt
    have hx : 5 + 256 * a.toNat + 65536 * b.toNat = 2 ^ 8 * (a.toNat + 256 * b.toNat) + 5 := by omega
    have hm : 4278190335 = 2 ^ 24 * 255 + 255 := by decide
    rw [hx, hm]
    apply Nat.eq_of_testBit_eq
    intro j
    rw [Nat.testBit_and, Nat.testBit_two_pow_mul_add _ (by decide), Nat.testBit_two_pow_mul_add _ (by decide)]
    have big (x k l : Nat) (h : x < 2 ^ k) (hl : k ≤ l) : x.testBit l = false :=
      Nat.testBit_lt_two_pow (lt_of_lt_of_le h (Nat.pow_le_pow_right (by decide) hl))
    by_cases h8 : j < 8
    · have : j < 24 := by omega
      simp only [h8, this, if_true]
      interval_cases j <;> decide
    · by_cases h24 : j < 24
      · simp [h8, h24, big 255 8 j (by decide) (by omega), big 5 8 j (by decide) (by omega)]
      · simp [h8, h24, big (a.toNat + 256 * b.toNat) 16 (j - 8) (by omega) (by omega), big 5 8 j (by decide) (by omega)]
  simpa [Statement, encode, le32, Opcode.code, Instr.opcode, Opcode.maskWord, Opcode.matchWord] using keyBytesMasked ka kb

theorem rot (k : Offset) (d : List Byte) : Statement (.rot k d) := by
  simp [Statement, encode, header, le32, Opcode.code, Instr.opcode, Opcode.maskWord, Opcode.matchWord]

theorem seedoff (d : List Byte) : Statement (.seedoff d) := by
  simp [Statement, encode, header, le32, Opcode.code, Instr.opcode, Opcode.maskWord, Opcode.matchWord]

end Sys2Proof.Laws.HeaderMatches
end

