-- ==== Sys2Proof/Machine/AsmText.lean ====
section
/-! DEFINITION. The text of an assembler line (`30_encoding.md` R76 to R78): comments, `%name =`, upper-case mnemonics,
operands with commas, integer and byte literals. Text is a list of characters. The lexical points R76 and R77 leave open
are fixed here and named in log 5; a double-quoted character stands for its ASCII code (G1, G3; log 8). -/

namespace Sys2Proof.Machine

/-- Blank characters between the parts of a line. -/
def isBlank (c : Char) : Bool := c == ' ' || c == '\t'

/-- The text without blanks at either end. -/
def trim (cs : List Char) : List Char :=
  ((cs.dropWhile isBlank).reverse.dropWhile isBlank).reverse

/-- The text up to the first `;` that is not inside double quotes; `quoted` says whether a quote is open (R76). -/
def stripComment (quoted : Bool) : List Char → List Char
  | [] => []
  | c :: cs =>
    if c == '"' then c :: stripComment (!quoted) cs
    else if c == ';' && !quoted then []
    else c :: stripComment quoted cs

/-- The parts between separators that are not inside double quotes, `acc` the part under way, reversed. -/
def splitOutsideQuotes (sep : Char) (quoted : Bool) (acc : List Char) : List Char → List (List Char)
  | [] => [acc.reverse]
  | c :: cs =>
    if c == '"' then splitOutsideQuotes sep (!quoted) (c :: acc) cs
    else if c == sep && !quoted then acc.reverse :: splitOutsideQuotes sep quoted [] cs
    else splitOutsideQuotes sep quoted (c :: acc) cs

/-- The value of a hexadecimal digit. -/
def hexDigit (c : Char) : Option Nat :=
  let n := c.toNat
  if 48 ≤ n ∧ n ≤ 57 then some (n - 48)
  else if 65 ≤ n ∧ n ≤ 70 then some (n - 55)
  else if 97 ≤ n ∧ n ≤ 102 then some (n - 87)
  else none

/-- The value of a decimal digit. -/
def decDigit (c : Char) : Option Nat :=
  if 48 ≤ c.toNat ∧ c.toNat ≤ 57 then some (c.toNat - 48) else none

/-- Digits to a number in a base, `acc` the value so far. -/
def digits (value : Char → Option Nat) (radix acc : Nat) : List Char → Option Nat
  | [] => some acc
  | c :: cs =>
    match value c with
    | none => none
    | some v => digits value radix (acc * radix + v) cs

/-- An integer literal: decimal with an optional minus sign, or hexadecimal with `0x` (R77). DESIGN CHOICE (log 5): leading
zeros are taken; a plus sign, a minus sign before `0x`, and `0X` are not. -/
def parseInt (cs : List Char) : Option Int :=
  match cs with
  | '0' :: 'x' :: d :: ds => (digits hexDigit 16 0 (d :: ds)).map Int.ofNat
  | '-' :: d :: ds => (digits decDigit 10 0 (d :: ds)).map fun n => -(Int.ofNat n)
  | d :: ds => (digits decDigit 10 0 (d :: ds)).map Int.ofNat
  | [] => none

/-- Pairs of hexadecimal digits with optional spaces between pairs, up to the closing quote, which ends the text (R77).
DESIGN CHOICE (log 5): spaces before the first pair and after the last are taken too, so `x" 41 "` is the byte 0x41 and
`x" "` is empty; only the space character is taken, and never within a pair. -/
def parseHexPairs : List Char → Option (List Byte)
  | ['"'] => some []
  | ' ' :: cs => parseHexPairs cs
  | a :: b :: cs =>
    match hexDigit a, hexDigit b with
    | some x, some y => (parseHexPairs cs).map (BitVec.ofNat 8 (16 * x + y) :: ·)
    | _, _ => none
  | _ => none

/-- Printable ASCII characters up to the closing quote, each the one byte that is its code (R77). -/
def parseQuoted : List Char → Option (List Byte)
  | ['"'] => some []
  | c :: cs =>
    if c != '"' && decide (32 ≤ c.toNat) && decide (c.toNat ≤ 126) then
      (parseQuoted cs).map (BitVec.ofNat 8 c.toNat :: ·)
    else none
  | [] => none

/-- A hexadecimal byte-sequence literal `x"..."` (R77). -/
def parseHexLiteral : List Char → Option (List Byte)
  | 'x' :: '"' :: cs => parseHexPairs cs
  | _ => none

/-- A byte-sequence literal of either form (R77). -/
def parseBytes : List Char → Option (List Byte)
  | '"' :: cs => parseQuoted cs
  | cs => parseHexLiteral cs

/-- A character of a name: a letter, a digit or `_`. -/
def isNameChar (c : Char) : Bool :=
  let n := c.toNat
  decide (48 ≤ n ∧ n ≤ 57) || decide (65 ≤ n ∧ n ≤ 90) || decide (97 ≤ n ∧ n ≤ 122) || c == '_'

/-- A name after its `%`. DESIGN CHOICE (log 5): no blank stands between the `%` of an operand and its name. -/
def parseName : List Char → Option Name
  | '%' :: c :: cs => if (c :: cs).all isNameChar then some (c :: cs) else none
  | _ => none

/-- An operand: a name, a byte-sequence literal, or an integer literal (R76, R77). -/
def parseOperand (cs : List Char) : Option Operand :=
  match parseName cs with
  | some x => some (.name x)
  | none =>
    match parseBytes cs with
    | some d => some (.lit (.bytes d))
    | none => (parseInt cs).map fun v => .lit (.int v)

/-- Operands separated by commas (R76). DESIGN CHOICE (log 5): blanks may stand before and after each operand. -/
def parseOperands (cs : List Char) : Option (List Operand) :=
  (splitOutsideQuotes ',' false [] cs).mapM fun part => parseOperand (trim part)

/-- A mnemonic and its operands, in the order of R76 and R78. -/
def buildCommand (mnemonic : List Char) (rest : List Char) : Option AsmCommand :=
  if mnemonic = ['R', 'A', 'W'] then (parseHexLiteral (trim rest)).map .raw
  else
    match parseOperands rest with
    | none => none
    | some ops =>
      if mnemonic = ['Q', 'U', 'A', 'N', 'T'] then
        match ops with | [c] => some (.quant c) | _ => none
      else if mnemonic = ['K', 'S', 'G', 'E', 'N'] then
        match ops with | [b] => some (.ksgen b) | _ => none
      else if mnemonic = ['X', 'S', 'T', 'R', 'E', 'A', 'M'] then
        match ops with | [ks, d] => some (.xstream ks d) | _ => none
      else if mnemonic = ['B', 'X', 'O', 'R'] then
        match ops with | [k, d] => some (.bxor k d) | _ => none
      else if mnemonic = ['S', 'P', 'L', 'I', 'T', 'X'] then
        match ops with | [a, b, d] => some (.splitx a b d) | _ => none
      else if mnemonic = ['R', 'O', 'T'] then
        match ops with | [k, d] => some (.rot k d) | _ => none
      else if mnemonic = ['S', 'E', 'E', 'D', 'O', 'F', 'F'] then
        match ops with | [d] => some (.seedoff d) | _ => none
      else if mnemonic = ['S', 'P', 'L', 'I', 'T', 'X', '.', 'F'] then
        match ops with | [d] => some (.splitxF d) | _ => none
      else if mnemonic = ['U', 'N', 'R', 'O', 'T'] then
        match ops with | [k, d] => some (.unrot k d) | _ => none
      else none

/-- A command: the mnemonic up to the first blank, then its operands; the blank that ends it is DESIGN CHOICE (log 5). -/
def parseCommand (cs : List Char) : Option AsmCommand :=
  buildCommand (cs.takeWhile fun c => !isBlank c) (cs.dropWhile fun c => !isBlank c)

/-- What a line of text is. -/
inductive ParsedLine where
  /-- Blanks and a comment only. -/
  | empty
  /-- A line the assembler takes. -/
  | line (l : Line)
  /-- Not a line of R76 to R78. -/
  | malformed
  deriving DecidableEq, Repr

/-- A command beside what it binds; `RAW` may bind nothing (R77). -/
def makeLine (bind : Option Name) (c : Option AsmCommand) : ParsedLine :=
  match bind, c with
  | _, none => .malformed
  | some _, some (.raw _) => .malformed
  | b, some c => .line { bind := b, command := c }

/-- One line of text (R76). DESIGN CHOICE (log 5): blanks may stand before and after the line, between the `%` that begins it
and the name, and on either side of `=` or not at all; a second `=` outside quotes makes the line malformed. -/
def parseLine (text : List Char) : ParsedLine :=
  match trim (stripComment false text) with
  | [] => .empty
  | '%' :: cs =>
    match splitOutsideQuotes '=' false [] cs with
    | [x, c] =>
      match parseName ('%' :: trim x) with
      | none => .malformed
      | some x => makeLine (some x) (parseCommand (trim c))
    | _ => .malformed
  | cs => makeLine none (parseCommand cs)

/-- The lines of a program text (R79). DESIGN CHOICE (log 5): none if one is malformed. -/
def parseProgram : List (List Char) → Option (List Line)
  | [] => some []
  | t :: ts =>
    match parseLine t with
    | .empty => parseProgram ts
    | .malformed => none
    | .line l => (parseProgram ts).map (l :: ·)

end Sys2Proof.Machine
end

