-- ==== Sys2Proof/Tests/Slice0.lean ====
section
/-! SUPPORT. Tests of the model: the bytes are those of `spec/95_test_vectors.md` (V1 to V49e) and of the examples in the
command rules, unless a comment says otherwise; and, for each obligation with hypotheses, a witness that meets them. -/

namespace Sys2Proof.Tests

open Sys2Proof Sys2Proof.Machine

-- WellFormed: its one check refuses data of 65536 bytes and takes 65535 (R7)

theorem test_wellFormed_refuses_long_data (d : List Byte) (h : d.length = 65536) :
    [Instr.xstream (Vector.replicate 16 0) d, .bxor (Vector.replicate 16 0) d, .splitx 0 0 d, .rot 0 d,
      .seedoff d].all (fun i => !i.wellFormed) = true := by
  simp [Instr.wellFormed, Instr.data, h]

theorem test_wellFormed_refuses_65536_bytes : (Instr.seedoff (List.replicate 65536 0xFF)).wellFormed = false := by
  rw [Instr.wellFormed, Instr.data, List.length_replicate]; decide

theorem test_wellFormed_takes_maxLen : (Instr.seedoff (List.replicate 65535 0xFF)).wellFormed = true := by
  rw [Instr.wellFormed, Instr.data, List.length_replicate]; decide

-- Decoding of words written out from R61 to R65

theorem test_decode_quant : decode [0x01, 0, 0, 0, 0xF4, 0xFF, 0xFF, 0xFF] = .ok (.quant 4294967284) := by decide
theorem test_decode_ksgen :
    decode [0x02, 0, 0, 0, 0x04, 0, 0, 0, 0x01, 0, 0, 0] = .ok (.ksgen 4294967300) := by decide
theorem test_decode_xstream :
    decode [0x03, 0, 0, 0, 0x01, 0, 0, 0, 0x51, 0x7D, 0x0B, 0x50, 0x37, 0x13, 0x8D, 0xFB, 0x08, 0x28, 0x4E, 0x50, 0x3F,
      0x10, 0x87, 0xCA, 0x66] =
      .ok (.xstream #v[0x51, 0x7D, 0x0B, 0x50, 0x37, 0x13, 0x8D, 0xFB, 0x08, 0x28, 0x4E, 0x50, 0x3F, 0x10, 0x87, 0xCA]
        [0x66]) := by decide
theorem test_decode_bxor :
    decode [0x04, 0, 0, 0, 0x01, 0, 0, 0, 0xA0, 0xA1, 0xA2, 0xA3, 0xA4, 0xA5, 0xA6, 0xA7, 0xA8, 0xA9, 0xAA, 0xAB, 0xAC,
      0xAD, 0xAE, 0xAF, 0x66] =
      .ok (.bxor #v[0xA0, 0xA1, 0xA2, 0xA3, 0xA4, 0xA5, 0xA6, 0xA7, 0xA8, 0xA9, 0xAA, 0xAB, 0xAC, 0xAD, 0xAE, 0xAF]
        [0x66]) := by decide
theorem test_decode_splitx :
    decode [0x05, 0x66, 0x77, 0, 0x02, 0, 0, 0, 0x41, 0x42] = .ok (.splitx 0x66 0x77 [0x41, 0x42]) := by decide
theorem test_decode_rot :
    decode [0x06, 0, 0, 0, 0x01, 0, 0, 0, 0xFB, 0xFF, 0xFF, 0xFF, 0x6B] = .ok (.rot (-5) [0x6B]) := by decide
theorem test_decode_seedoff : decode [0x07, 0, 0, 0, 0x02, 0, 0, 0, 0xFF, 0xFE] = .ok (.seedoff [0xFF, 0xFE]) := by decide

/-- The offset field FB FF FF FF is -5 (V29). -/
theorem test_offset_is_signed : offsetValue (-5) = -5 := by decide

-- The opcode table's words, and the step that runs one first after reset

theorem test_table_words :
    [decodeTableWord 32 0x00000001, decodeTableWord 32 0x00000002, decodeTableWord 32 0x00770005,
      decodeTableWord 32 0x00000006, decodeTableWord 32 0x00000007, decodeTableWord 32 0x00000008,
      decodeTableWord 32 0x00000101] =
      [some (.quant 0), some (.ksgen 0), some (.splitx 0 0x77 []), some (.rot 0 []), some (.seedoff []), none, none] := by
  decide
theorem test_table_words_keyed :
    [decodeTableWord 32 0x00000003, decodeTableWord 32 0x00000004] =
      [some (.xstream (Vector.replicate 16 0) []), some (.bxor (Vector.replicate 16 0) [])] := by decide
theorem test_table_word_with_operand : decodeTableWord 64 0x0000010400000001 = some (.quant 260) := by decide
theorem test_withFetchWord_runs_first :
    step (State.reset.withFetchWord 32 0x00000007) = .next ⟨[], [[0x07, 0, 0, 0, 0, 0, 0, 0]]⟩ := rfl

-- One or two steps of each command, on messages of part 2

/-- V4: 255 rounds up to 260; the waiting command and response stay. -/
theorem test_step_quant :
    step ⟨[[0x01, 0, 0, 0, 0xFF, 0, 0, 0], [0x08]], [[0x01, 0x02, 0, 0]]⟩ =
      .next ⟨[[0x08]], [[0x01, 0x02, 0, 0], [0x01, 0, 0, 0, 0x04, 0x01, 0, 0, 0, 0, 0, 0]]⟩ := rfl
/-- V4, last row: the only bucket above 2^32. -/
theorem test_quant_greatest :
    quantResponse 4294967295 = [0x01, 0, 0, 0, 0x04, 0, 0, 0, 0x01, 0, 0, 0] := by decide
/-- V11. -/
theorem test_ksgen_260 :
    ksgenResponse 260 = [0x02, 0, 0, 0, 0x51, 0x7D, 0x0B, 0x50, 0x37, 0x13, 0x8D, 0xFB, 0x08, 0x28, 0x4E, 0x50, 0x3F,
      0x10, 0x87, 0xCA] := by decide
/-- V13b: the greatest bucket, where a 64-bit product would wrap. -/
theorem test_ksgen_greatest :
    ksgenResponse 18446744073709551615 = [0x02, 0, 0, 0, 0x00, 0xF4, 0xE5, 0x6A, 0x2F, 0x97, 0xB0, 0xD2, 0xC7, 0x07,
      0x87, 0x94, 0x73, 0x0B, 0xD8, 0x0E] := by decide
/-- V16, its first byte and the bytes at indices 15 and 16, where the keystream cycles. -/
theorem test_xstream_cycles :
    let out := xorStream ((List.range 17).map (BitVec.ofNat 8)) (deriveKeystream 260)
    [byteAt out 0, byteAt out 15, byteAt out 16] = [0x56, 0x0F, 0x96] := by decide
/-- V15 at index 20, where the position key wraps. -/
theorem test_positionKey_wraps : [positionKey 19, positionKey 20, positionKey 256] = [0xFE, 0x0B, 0x07] := by decide
/-- V21. -/
theorem test_bxor :
    bxorResponse #v[0xA0, 0xA1, 0xA2, 0xA3, 0xA4, 0xA5, 0xA6, 0xA7, 0xA8, 0xA9, 0xAA, 0xAB, 0xAC, 0xAD, 0xAE, 0xAF]
      [0x66, 0x6C, 0x61, 0x67, 0x7B] = [0x04, 0, 0, 0, 0x05, 0, 0, 0, 0xC6, 0xCD, 0xC3, 0xC4, 0xDF] := by decide
/-- V24: odd length, the middle byte takes `kb`. -/
theorem test_splitx_odd :
    splitxResponse 0x66 0x77 [0x41, 0x42, 0x43, 0x44, 0x45] =
      [0x05, 0, 0, 0, 0x05, 0, 0, 0, 0x27, 0x24, 0x34, 0x33, 0x32] := by decide
/-- V25: length 1. -/
theorem test_splitx_one : splitxResponse 0x66 0x77 [0x41] = [0x05, 0, 0, 0, 0x01, 0, 0, 0, 0x36] := by decide
/-- V31 with offset -1, every class boundary. -/
theorem test_rot_boundaries :
    rotResponse (-1) [0x40, 0x41, 0x5A, 0x5B, 0x60, 0x61, 0x7A, 0x7B, 0x80, 0xC1, 0xFF] =
      [0x06, 0, 0, 0, 0x0B, 0, 0, 0, 0x40, 0x5A, 0x59, 0x5B, 0x60, 0x7A, 0x79, 0x7B, 0x80, 0xC1, 0xFF] := by decide
/-- V32: the two extreme offsets. -/
theorem test_rot_extreme_offsets :
    (rotResponse 0x80000000 [0x41, 0x5A, 0x61, 0x7A]).drop 8 = [0x43, 0x42, 0x63, 0x62] ∧
      (rotResponse 0x7FFFFFFF [0x41, 0x5A, 0x61, 0x7A]).drop 8 = [0x58, 0x57, 0x78, 0x77] := by decide
/-- V36. -/
theorem test_seedoff_bytes : seedoffResponse [0xFF, 0xFF] = [0x07, 0, 0, 0, 0x10, 0, 0, 0] := by decide

-- Error responses, one for each check of R205 and its neighbours (V40 to V49e)

theorem test_errors_checks_1_to_3 :
    [[], [0x09, 0, 0], [0, 0, 0, 0, 0, 0, 0, 0], [0x08, 0, 0, 0, 0, 0, 0, 0], [0x09, 0xFF, 0, 0x01],
      [0x01, 0, 0, 0x01, 0x04, 0x01, 0, 0], [0x01, 0x66, 0, 0, 0x04, 0x01, 0, 0], [0x07, 0, 0x01, 0, 0, 0, 0, 0],
      [0x05, 0, 0, 0x80, 0, 0, 0, 0], [0x03, 0, 0, 0x01, 0]].map respond =
    [[0, 0x04, 0, 0], [0x09, 0x04, 0, 0], [0, 0x01, 0, 0], [0x08, 0x01, 0, 0], [0x09, 0x01, 0, 0],
      [0x01, 0x02, 0, 0], [0x01, 0x02, 0, 0], [0x07, 0x02, 0, 0], [0x05, 0x02, 0, 0], [0x03, 0x02, 0, 0]] := by decide
theorem test_errors_checks_4_to_6 :
    [[0x01, 0, 0, 0, 0x04, 0x01, 0], [0x01, 0, 0, 0, 0x04, 0x01, 0, 0, 0], [0x02, 0, 0, 0, 0x04, 0x01, 0, 0],
      [0x03, 0, 0, 0], [0x03, 0, 0, 0, 0, 0, 0x01, 0], [0x06, 0, 0, 0, 0xFF, 0xFF, 0xFF, 0xFF, 0, 0, 0, 0],
      [0x03, 0, 0, 0, 0, 0, 0, 0], [0x05, 0x66, 0x77, 0, 0x05, 0, 0, 0, 0x41], [0x06, 0, 0, 0, 0, 0, 0, 0],
      [0x07, 0, 0, 0, 0, 0, 0, 0, 0], [0x03, 0, 0, 0, 0xFF, 0xFF, 0, 0]].map (fun m => byteAt (respond m) 1) =
    [0x04, 0x04, 0x04, 0x04, 0x03, 0x03, 0x04, 0x04, 0x04, 0x04, 0x04] := by decide

-- The assembler's text (R76, R77), one line of each literal form

theorem test_parse_named_line :
    parseLine "%b = QUANT 260 ; a comment".toList = .line ⟨some ['b'], .quant (.lit (.int 260))⟩ := by decide
theorem test_parse_bytes :
    parseLine "SPLITX 0x66, 0x77, x\"41 42;\"".toList = .malformed ∧
      parseLine "SPLITX 0x66, 0x77, \"A,;\"".toList =
        .line ⟨none, .splitx (.lit (.int 0x66)) (.lit (.int 0x77)) (.lit (.bytes [0x41, 0x2C, 0x3B]))⟩ := by decide
theorem test_parse_rot_name :
    parseLine "%t = UNROT -5, %d1".toList = .line ⟨some ['t'], .unrot (.lit (.int (-5))) (.name ['d', '1'])⟩ := by decide
theorem test_parse_raw :
    parseLine "RAW x\"08 00 00 00\"".toList = .line ⟨none, .raw [0x08, 0, 0, 0]⟩ ∧
      parseLine "%a = RAW x\"\"".toList = .malformed ∧ parseLine "  ; nothing".toList = .empty := by decide
/-- Each range check of R76 and R78 refuses a value just outside it. -/
theorem test_assembler_rejects :
    [assemble [] (.quant (.lit (.int (-1)))), assemble [] (.ksgen (.lit (.int 18446744073709551616))),
      assemble [] (.rot (.lit (.int 2147483648)) (.lit (.bytes []))),
      assemble [] (.unrot (.lit (.int (-2147483648))) (.lit (.bytes []))),
      assemble [] (.splitx (.lit (.int 256)) (.lit (.int 0)) (.lit (.bytes []))),
      assemble [] (.bxor (.lit (.bytes [1, 2])) (.lit (.bytes []))), assemble [] (.ksgen (.name ['x'])),
      assemble [] (.seedoff (.lit (.int 0)))] =
    [.error .countRange, .error .bucketRange, .error .offsetRange, .error .offsetRange, .error .keyByteRange,
      .error .keyLength, .error .unbound, .error .wrongKind] := by decide
/-- P4, line 2: an error binds nothing; P4, line 6: the next line is as if it had not been. -/
theorem test_program_error_binds_nothing :
    runProgram [⟨some ['a'], .raw [0x01, 0, 0, 0x01, 0x08, 0x01, 0, 0]⟩, ⟨some ['z'], .quant (.lit (.int 264))⟩]
      ProgState.start =
    .ok ⟨State.reset, [(['z'], .int 260)],
      [[0x01, 0x02, 0, 0], [0x01, 0, 0, 0, 0x04, 0x01, 0, 0, 0, 0, 0, 0]]⟩ := by decide

-- Witnesses: for each obligation with hypotheses, a state and operands that meet them together

/-- QUANT 260 waits, a malformed message behind it. -/
def busy : State := ⟨[[0x01, 0, 0, 0, 0x04, 0x01, 0, 0], [0x08, 0, 0, 0]], [[0x01, 0x02, 0, 0]]⟩

theorem test_witness_StepRunsTheDecodedCommand :
    busy.cmdq = [0x01, 0, 0, 0, 0x04, 0x01, 0, 0] :: [[0x08, 0, 0, 0]] ∧
      decode [0x01, 0, 0, 0, 0x04, 0x01, 0, 0] = .ok (.quant 260) := by decide
theorem test_witness_MalformedCommandGetsHeaderOnlyResponse :
    (⟨[[0x08, 0, 0, 0]], []⟩ : State).cmdq = [0x08, 0, 0, 0] :: [] ∧
      decode [0x08, 0, 0, 0] = .error .illegalOpcode := by decide
theorem test_witness_StepAppendsRespond :
    busy.cmdq = [0x01, 0, 0, 0, 0x04, 0x01, 0, 0] :: [[0x08, 0, 0, 0]] ∧ (Instr.quant 260).wellFormed = true := by decide
theorem test_witness_StepOnEmptyQueueChangesNothing : (⟨[], [[0x01, 0x02, 0, 0]]⟩ : State).cmdq = [] := rfl
theorem test_witness_ResponseIndependentOfHistory :
    busy.cmdq = [0x01, 0, 0, 0, 0x04, 0x01, 0, 0] :: [[0x08, 0, 0, 0]] ∧
      (⟨[[0x01, 0, 0, 0, 0x04, 0x01, 0, 0]], []⟩ : State).cmdq = [0x01, 0, 0, 0, 0x04, 0x01, 0, 0] :: [] ∧
      step busy = .next ⟨[[0x08, 0, 0, 0]], [[0x01, 0x02, 0, 0], [0x01, 0, 0, 0, 0x04, 0x01, 0, 0, 0, 0, 0, 0]]⟩ ∧
      step ⟨[[0x01, 0, 0, 0, 0x04, 0x01, 0, 0]], []⟩ = .next ⟨[], [[0x01, 0, 0, 0, 0x04, 0x01, 0, 0, 0, 0, 0, 0]]⟩ :=
  ⟨rfl, rfl, rfl, rfl⟩

/-- Two commands submitted, the first answered and not yet collected. -/
def underWay : Observed :=
  { state := ⟨[[0x08, 0, 0, 0]], [[0x00, 0x04, 0, 0]]⟩, submitted := [[], [0x08, 0, 0, 0]], collected := [] }

theorem test_witness_EventsKeepTheAccounting :
    underWay.Accounted ∧ (underWay.after .block).isSome = true ∧ (underWay.after .collect).isSome = true ∧
      (underWay.after (.submit [0x01])).isSome = true ∧ (underWay.after .reset).isSome = true := by
  unfold Observed.Accounted; decide
theorem test_witness_CollectedResponsesFollowSubmissions :
    Observed.start.run [.submit [], .submit [0x08, 0, 0, 0], .block, .collect, .block] =
      some ⟨⟨[], [[0x08, 0x01, 0, 0]]⟩, [[], [0x08, 0, 0, 0]], [[0x00, 0x04, 0, 0]]⟩ := by decide
theorem test_witness_StepKeepsResponsesValid :
    busy.Inv ∧ step busy =
      .next ⟨[[0x08, 0, 0, 0]], [[0x01, 0x02, 0, 0], [0x01, 0, 0, 0, 0x04, 0x01, 0, 0, 0, 0, 0, 0]]⟩ :=
  ⟨by unfold State.Inv; decide, rfl⟩
theorem test_witness_HostActionsKeepResponsesValid :
    busy.Inv ∧ busy.collect = some ([0x01, 0x02, 0, 0], ⟨busy.cmdq, []⟩) := ⟨by unfold State.Inv; decide, rfl⟩
theorem test_witness_ExecAppendsOneOkResponse :
    exec (.seedoff [0x41]) busy = .next ⟨busy.cmdq, [[0x01, 0x02, 0, 0], [0x07, 0, 0, 0, 0x0D, 0, 0, 0]]⟩ := rfl
theorem test_witness_DecodeReadsBackEveryEncoding : (Instr.rot (-5) [0x41, 0x42]).wellFormed = true := by decide
theorem test_witness_DecodeAcceptsOnlyEncodings :
    decode [0x05, 0x66, 0x77, 0, 0x01, 0, 0, 0, 0x41] = .ok (.splitx 0x66 0x77 [0x41]) := by decide

/-- The `LEN` hypotheses at the least and the greatest length. -/
theorem test_witness_DataFormatDecodes :
    (0x00#8).toNat + 256 * (0x00#8).toNat + 65536 * (0x00#8).toNat + 16777216 * (0x00#8).toNat = ([] : List Byte).length ∧
      (0xFF#8).toNat + 256 * (0xFF#8).toNat + 65536 * (0x00#8).toNat + 16777216 * (0x00#8).toNat =
        (List.replicate 65535 (0 : Byte)).length ∧ (List.replicate 65535 (0 : Byte)).length ≤ 65535 := by
  rw [List.length_replicate]; decide
theorem test_witness_KeyFormatDecodes :
    (0x01#8).toNat + 256 * (0x00#8).toNat + 65536 * (0x00#8).toNat + 16777216 * (0x00#8).toNat = [(0x66 : Byte)].length ∧
      [(0x66 : Byte)].length ≤ 65535 := by decide
theorem test_witness_RotationFormatDecodes :
    (0x02#8).toNat + 256 * (0x00#8).toNat + 65536 * (0x00#8).toNat + 16777216 * (0x00#8).toNat =
      [(0x41 : Byte), 0x42].length ∧ [(0x41 : Byte), 0x42].length ≤ 65535 := by decide
/-- The two sides of the sign of an offset field, for `RotationFormatDecodes`. -/
theorem test_witness_RotationFormat_signs :
    decode [0x06, 0, 0, 0, 0, 0, 0, 0, 0xFF, 0xFF, 0xFF, 0x7F] = .ok (.rot 0x7FFFFFFF []) ∧
      offsetValue 0x7FFFFFFF = 2147483647 ∧
      decode [0x06, 0, 0, 0, 0, 0, 0, 0, 0, 0, 0, 0x80] = .ok (.rot 0x80000000 []) ∧
      offsetValue 0x80000000 = -2147483648 := by decide
theorem test_witness_EncodedLengthIsTheFormats : decode [0x07, 0, 0, 0, 0, 0, 0, 0] = .ok (.seedoff []) := by decide
theorem test_witness_HeaderSelectsCommandByMask :
    4 ≤ ([0x05, 0xFF, 0x80, 0] : Message).length ∧
      le32 [0x05, 0xFF, 0x80, 0] 0 &&& Opcode.splitx.maskWord = Opcode.splitx.matchWord ∧
      le32 [0x05, 0xFF, 0x80, 1] 0 &&& Opcode.splitx.maskWord ≠ Opcode.splitx.matchWord ∧
      Opcode.ofByte 0x00 = none ∧ Opcode.ofByte 0x07 = some .seedoff ∧ Opcode.ofByte 0x08 = none := by decide
theorem test_witness_ErrorStatusHasExactlyTheseCauses :
    ([[0x08, 0, 0, 0], [0x01, 0, 0, 1], [0x07, 0, 0, 0, 0, 0, 1, 0], []].map fun m => byteAt (respond m) 1) =
      [0x01, 0x02, 0x03, 0x04] := by decide
theorem test_witness_QuantizeRoundsToTheNearestTen :
    4 % 10 ≤ 4 ∧ quantize 4 = 0 ∧ 5 ≤ 5 % 10 ∧ quantize 5 = 10 ∧ 5 ≤ 9 % 10 ∧ quantize 9 = 10 ∧ quantize 10 = 10 := by
  decide
theorem test_witness_QuantResultFitsTheField :
    byteAt (quantResponse 4294967295) 8 = 0x01 ∧ (4294967294 : Count) ≠ 4294967295 ∧
      byteAt (quantResponse 4294967294) 8 = 0x00 := by decide
theorem test_witness_QuantizationWindow :
    0 % 10 = 0 ∧ 260 % 10 = 0 ∧ quantize 254 = 250 ∧ quantize 255 = 260 ∧ quantize 264 = 260 ∧ quantize 265 = 270 := by
  decide
/-- The sequence of R118, for `KsgenAnswersTheKeystream` and `KeystreamFollowsHashesSeedAndRecurrence`. -/
theorem test_witness_KsgenAnswersTheKeystream :
    lcgState 3504 0 = ((260 : Bucket).toNat * 7 + 101 + 724 + 859) % 65536 ∧ seed 260 = 3504 ∧
      101 = ((260 : Bucket).toNat * 31 + 17) % 997 ∧ 724 = ((260 : Bucket).toNat * 37 + 23) % 991 ∧
      859 = ((260 : Bucket).toNat * 41 + 29) % 983 ∧
      (∀ i, lcgState 3504 (i + 1) = (lcgState 3504 i * 1103515245 + 12345) % 2147483648) ∧
      lcgState 3504 1 = 1246864425 := ⟨by decide, by decide, by decide, by decide, by decide, fun _ => rfl, by decide⟩
/-- V14. -/
theorem test_witness_KeystreamDependsOnSeedOnly :
    seed (260 : Bucket).toNat = seed (402810 : Bucket).toNat ∧ (260 : Bucket) ≠ 402810 := by decide
theorem test_witness_CollidingCountsAreInterchangeable :
    ((runProgram (encodeLines (.lit (.int 5)) (Vector.replicate 16 0xA0) 402805 [0x66]) ProgState.start).toOption.map
        (fun p => lookup nameOut p.env)) =
      ((runProgram (encodeLines (.lit (.int 5)) (Vector.replicate 16 0xA0) 264 [0x66]) ProgState.start).toOption.map
        (fun p => lookup nameOut p.env)) ∧
    (runProgram (encodeLines (.lit (.int 5)) (Vector.replicate 16 0xA0) 264 [0x66]) ProgState.start).isOk = true := by
  decide
theorem test_witness_WrongTestedBucketsDiffer :
    byteAt (xorStream [0x66] (deriveKeystream (10 * 21))) 0 = byteAt (xorStream [0x66] (deriveKeystream 260)) 0 ∧
      byteAt (xorStream [0x66] (deriveKeystream (10 * 0))) 0 ≠ byteAt (xorStream [0x66] (deriveKeystream 260)) 0 := by
  decide
theorem test_witness_KeystreamFollowsHashesSeedAndRecurrence :
    lcgState (seed 260) 0 = seed 260 ∧
      ∀ i, lcgState (seed 260) (i + 1) = (lcgState (seed 260) i * 1103515245 + 12345) % 2147483648 := ⟨rfl, fun _ => rfl⟩
/-- An index inside the data, for the three XOR result statements; both chunks of `SPLITX`, at their border. -/
theorem test_witness_XstreamAnswersEachByte :
    0 < [(0x66 : Byte)].length ∧ [(0x66 : Byte)].length ≤ 65535 ∧ byteAt (xstreamResponse (Vector.replicate 16 0) [0x66]) 8 = 0x61 := by
  decide
theorem test_witness_BxorAnswersEachByte :
    0 < [(0x66 : Byte)].length ∧ byteAt (bxorResponse (Vector.replicate 16 0xA0) [0x66]) 8 = 0xC6 := by decide
theorem test_witness_SplitxAnswersEachByte :
    0 < [(0x41 : Byte), 0x42, 0x43].length / 2 ∧ [(0x41 : Byte), 0x42, 0x43].length / 2 ≤ 1 ∧
      [byteAt (splitxResponse 0x66 0x77 [0x41, 0x42, 0x43]) 8, byteAt (splitxResponse 0x66 0x77 [0x41, 0x42, 0x43]) 9] =
        [0x27, 0x35] := by decide
theorem test_witness_XstreamTwiceIsTheIdentity :
    step ⟨encode (.xstream (Vector.replicate 16 0) [0x66]) :: [], []⟩ =
      .next ⟨[], [] ++ [[0x03, 0, 0, 0] ++ leBytes 4 [(0x66 : Byte)].length ++ [0x61]]⟩ := rfl
theorem test_witness_BxorTwiceIsTheIdentity :
    step ⟨encode (.bxor (Vector.replicate 16 0xA0) [0x66]) :: [], []⟩ =
      .next ⟨[], [] ++ [[0x04, 0, 0, 0] ++ leBytes 4 [(0x66 : Byte)].length ++ [0xC6]]⟩ := rfl
theorem test_witness_SplitxTwiceIsTheIdentity :
    step ⟨encode (.splitx 0x66 0x77 [0x41]) :: [], []⟩ =
      .next ⟨[], [] ++ [[0x05, 0, 0, 0] ++ leBytes 4 [(0x41 : Byte)].length ++ [0x36]]⟩ := rfl
theorem test_witness_SplitxCornerCases :
    ([0x41] : List Byte).length = ([0x42] : List Byte).length ∧
      ([] : List Byte).length + 1 = ([0x42] : List Byte).length := by decide
theorem test_witness_XorLayersCommute : XorLayer (fun d => splitXor d 1 2) := .inr (.inr ⟨1, 2, rfl⟩)
theorem test_witness_DataCommandsPreserveLength :
    ([0x41] : List Byte).length ≤ 65535 ∧ Instr.rot 5 [0x41] = .rot 5 [0x41] := by decide
theorem test_witness_RotAnswersEachByte : 0 < [(0x5A : Byte)].length ∧ byteAt (rotResponse 1 [0x5A]) 8 = 0x41 := by decide
/-- The classes at their bounds. -/
theorem test_witness_RotCharKeepsTheClass :
    [rotChar 0x40 1, rotChar 0x41 1, rotChar 0x5A 1, rotChar 0x5B 1, rotChar 0x60 1, rotChar 0x61 1, rotChar 0x7A 1,
      rotChar 0x7B 1] = [0x40, 0x42, 0x41, 0x5B, 0x60, 0x62, 0x61, 0x7B] := by decide
theorem test_witness_DoubledReductionIsTheSingleOne :
    isUpper 0x41 = true ∧ (-5 : Int) = ((0x41 : Byte).toNat : Int) - 0x41 + (-5) ∧ rotChar 0x41 (-5) = 0x56 := by decide
theorem test_witness_RotationDependsOnOffsetModAlphabet : (-26 : Int) % 26 = 0 := by decide
theorem test_witness_RotationIsInvertedByTheNegatedOffset :
    ((-5 : Offset) ≠ 0x80000000 ∧ (5 : Offset) = -(-5)) ∧
      step ⟨encode (.rot (-5) [0x41]) :: [], []⟩ =
        .next ⟨[], [] ++ [[0x06, 0, 0, 0] ++ leBytes 4 [(0x41 : Byte)].length ++ [0x56]]⟩ ∧
      step ⟨encode (.rot 0x80000000 [0x41]) :: [], []⟩ =
        .next ⟨[], [] ++ [[0x06, 0, 0, 0] ++ leBytes 4 [(0x41 : Byte)].length ++ [0x43]]⟩ :=
  ⟨by decide, rfl, rfl⟩
theorem test_witness_SeedOffsetIgnoresTheOrder : ([0x41, 0x42] : List Byte).Perm [0x42, 0x41] := by decide
theorem test_witness_PseudoInstructionsAreTheirExpansions :
    (-2147483647 : Int) ≤ -2147483647 ∧ (2147483647 : Int) ≤ 2147483647 ∧
      assemble [] (.unrot (.lit (.int (-2147483647))) (.lit (.bytes []))) =
        .ok [0x06, 0, 0, 0, 0, 0, 0, 0, 0xFF, 0xFF, 0xFF, 0x7F] := by decide
theorem test_witness_AssembledMessageCarriesItsCommand :
    assemble [] (.quant (.lit (.int 260))) = .ok [0x01, 0, 0, 0, 0x04, 0x01, 0, 0] := by decide
theorem test_witness_ProgramLeavesTheBlockEmpty :
    runProgram [⟨none, .seedoff (.lit (.bytes [0x41]))⟩] ProgState.start =
      .ok ⟨State.reset, [], [[0x07, 0, 0, 0, 0x0D, 0, 0, 0]]⟩ := by decide
theorem test_witness_EncodeOrderComputesThePipeline :
    ([0x41] : List Byte).length ≤ 65535 ∧ 260 ≤ 4294967295 ∧ ([0x66] : List Byte).length ≤ 65535 := by decide
/-- Counts 260 and 259 (program P2). -/
theorem test_witness_DecodeOrderInvertsEncodeOrder :
    ([0x66] : List Byte).length ≤ 65535 ∧ (-2147483647 : Int) ≤ 20 ∧ (20 : Int) ≤ 2147483647 ∧ 260 ≤ 4294967295 ∧
      259 ≤ 4294967295 ∧ quantize 260 = quantize 259 := by decide
theorem test_witness_DegenerateVariantTwiceIsTheIdentity : ([0x41, 0x42] : List Byte).length ≤ 65535 := by decide

end Sys2Proof.Tests
end

section
/-! PROOFS. The encoder against the decoder: what each of the decoder's checks (`30_encoding.md` R67) finds in an encoded
command, and that the fields are read back. -/

namespace Sys2Proof

/-- A scalar command has no data (R60). -/
theorem data_eq_nil_of_hasData_false {i : Instr} (h : i.opcode.format.hasData = false) : i.data = [] := by
  cases i with
  | quant | ksgen => rfl
  | xstream | bxor | splitx | rot | seedoff => cases h

theorem encode_byteAt_zero (i : Instr) : byteAt (encode i) 0 = i.opcode.code := by
  cases i <;> rfl

/-- The reserved header bytes of an encoded command are zero; `SPLITX` keeps its keys in bytes 1 and 2 (R61). -/
theorem reservedNonzero_encode (i : Instr) : reservedNonzero i.opcode (encode i) = false := by
  cases i <;> simp [reservedNonzero, encode, header, Instr.opcode]

/-- The length of an encoded command is its format's (R60). -/
theorem encode_length (i : Instr) : (encode i).length = i.opcode.format.fixedLength + i.data.length := by
  cases i <;>
    simp [encode, header, lenField, Instr.opcode, Instr.data, Opcode.format, Format.fixedLength] <;> omega

/-- The shortest command has 8 bytes (R60). -/
theorem eight_le_encode_length (i : Instr) : 8 ≤ (encode i).length := by
  rw [encode_length]
  cases i <;> simp [Instr.opcode, Opcode.format, Format.fixedLength] <;> omega

/-- The `LEN` field of an encoded data command is the length of its data (R63 to R65). -/
theorem le32_four_encode {i : Instr} (hd : i.opcode.format.hasData = true) (hw : i.wellFormed = true) :
    le32 (encode i) 4 = i.data.length := by
  have hlen : i.data.length < 4294967296 := by have := wellFormed_iff.mp hw; omega
  have read (h b : List Byte) (hh : h.length = 4) : le32 (h ++ leBytes 4 i.data.length ++ b) 4 = i.data.length := by
    simpa [hh] using le32_leBytes h b i.data.length hlen
  cases i with
  | quant | ksgen => cases hd
  | xstream ks d => simpa [encode, lenField, Instr.data] using read (header .xstream) (ks.toList ++ d) rfl
  | bxor key d => simpa [encode, lenField, Instr.data] using read (header .bxor) (key.toList ++ d) rfl
  | splitx ka kb d => exact read [Opcode.splitx.code, ka, kb, 0] d rfl
  | rot k d => simpa [encode, lenField, Instr.data] using read (header .rot) (leBytes 4 k.toNat ++ d) rfl
  | seedoff d => exact read (header .seedoff) d rfl

theorem sizeError_encode {i : Instr} (hw : i.wellFormed = true) : sizeError i.opcode.format (encode i) = none := by
  rw [sizeError_eq_none]
  cases hd : i.opcode.format.hasData with
  | true =>
    refine .inl ⟨rfl, ?_, ?_, ?_⟩
    · exact eight_le_encode_length i
    · rw [le32_four_encode hd hw]; exact wellFormed_iff.mp hw
    · rw [le32_four_encode hd hw, encode_length]
  | false =>
    refine .inr ⟨rfl, ?_⟩
    rw [encode_length, data_eq_nil_of_hasData_false hd, List.length_nil, Nat.add_zero]

/-- Each operand is read back from where the format tables of R62 to R65 put it. -/
theorem fields_encode {i : Instr} (hw : i.wellFormed = true) : fields i.opcode (encode i) = i := by
  cases i with
  | quant c =>
    have hc : le32 (encode (.quant c)) 4 = c.toNat := by
      simpa [encode, header] using le32_leBytes (header .quant) [] c.toNat c.isLt
    simp [fields, Instr.opcode, hc]
  | ksgen b =>
    have hb : le64 (encode (.ksgen b)) 4 = b.toNat := by
      simpa [encode, header] using le64_leBytes (header .ksgen) [] b.toNat b.isLt
    simp [fields, Instr.opcode, hb]
  | xstream ks d =>
    have hl := le32_four_encode (i := .xstream ks d) rfl hw
    have hk : keyAt (encode (.xstream ks d)) 8 = ks := keyAt_toList (header .xstream ++ lenField d) d ks
    have hd : slice (encode (.xstream ks d)) 24 d.length = d := by
      simpa [encode, header, lenField] using slice_append (header .xstream ++ lenField d ++ ks.toList) d
    simp [fields, Instr.opcode, Instr.data, hl, hk, hd]
  | bxor key d =>
    have hl := le32_four_encode (i := .bxor key d) rfl hw
    have hk : keyAt (encode (.bxor key d)) 8 = key := keyAt_toList (header .bxor ++ lenField d) d key
    have hd : slice (encode (.bxor key d)) 24 d.length = d := by
      simpa [encode, header, lenField] using slice_append (header .bxor ++ lenField d ++ key.toList) d
    simp [fields, Instr.opcode, Instr.data, hl, hk, hd]
  | splitx ka kb d =>
    have hl := le32_four_encode (i := .splitx ka kb d) rfl hw
    have hd : slice (encode (.splitx ka kb d)) 8 d.length = d :=
      slice_append ([Opcode.splitx.code, ka, kb, 0] ++ lenField d) d
    have ha : byteAt (encode (.splitx ka kb d)) 1 = ka := rfl
    have hb : byteAt (encode (.splitx ka kb d)) 2 = kb := rfl
    simp [fields, Instr.opcode, Instr.data, hl, ha, hb, hd]
  | rot k d =>
    have hl := le32_four_encode (i := .rot k d) rfl hw
    have hk : le32 (encode (.rot k d)) 8 = k.toNat := le32_leBytes (header .rot ++ lenField d) d k.toNat k.isLt
    have hd : slice (encode (.rot k d)) 12 d.length = d :=
      slice_append (header .rot ++ lenField d ++ leBytes 4 k.toNat) d
    simp [fields, Instr.opcode, Instr.data, hl, hk, hd]
  | seedoff d =>
    have hl := le32_four_encode (i := .seedoff d) rfl hw
    have hd : slice (encode (.seedoff d)) 8 d.length = d := slice_append (header .seedoff ++ lenField d) d
    simp [fields, Instr.opcode, Instr.data, hl, hd]

/-- The decoder reads every well-formed command back from its encoding. -/
theorem decode_encode {i : Instr} (hw : i.wellFormed = true) : decode (encode i) = .ok i :=
  decode_eq_ok.mpr ⟨i.opcode, (by decide : 4 ≤ 8).trans (eight_le_encode_length i),
    ofByte_eq_some.mpr (encode_byteAt_zero i), reservedNonzero_encode i, sizeError_encode hw, (fields_encode hw).symm⟩

/-- The data the decoder takes from a message is no longer than the message's `LEN` field. -/
theorem fields_data_length_le (op : Opcode) (m : Message) : (fields op m).data.length ≤ le32 m 4 := by
  cases op <;> simp [fields, Instr.data]

@[simp] theorem fields_opcode (op : Opcode) (m : Message) : (fields op m).opcode = op := by
  cases op <;> rfl

/-- What the decoder accepts is well-formed: `LEN` was checked (R67). -/
theorem wellFormed_of_decode {m : Message} {i : Instr} (h : decode m = .ok i) : i.wellFormed = true := by
  obtain ⟨op, -, -, -, hsize, rfl⟩ := decode_eq_ok.mp h
  rw [wellFormed_iff]
  rcases sizeError_eq_none.mp hsize with ⟨-, -, hlen, -⟩ | ⟨hscalar, -⟩
  · exact (fields_data_length_le op m).trans hlen
  · simp [data_eq_nil_of_hasData_false (i := fields op m) (by simpa using hscalar)]

/-- A refusal never carries the status `OK` (R67, R203). -/
theorem ne_ok_of_decode_error {m : Message} {st : Status} (h : decode m = .error st) : st ≠ .ok := by
  rcases decode_eq_error.mp h with ⟨-, rfl⟩ | ⟨-, -, rfl⟩ | ⟨op, -, -, ⟨-, rfl⟩ | ⟨-, hsize⟩⟩
  · decide
  · decide
  · decide
  · rcases sizeError_eq_some.mp hsize with ⟨rfl, -⟩ | ⟨rfl, -⟩ <;> decide

end Sys2Proof
end

section
/-! PROOFS. The shape of every response (`30_encoding.md` R70, R71, `60_exceptions.md` R204): a header, and for an `OK`
response the payload of its command. -/

namespace Sys2Proof.Machine

/-- The payload of a command's `OK` response (R71); `responseTo_eq_okResponse` ties it to the model. -/
def okPayload : Instr → List Byte
  | .quant count => leBytes 8 (quantize count.toNat)
  | .ksgen bucket => (deriveKeystream bucket.toNat).toList
  | .xstream ks d => dataPayload (xorStream d ks)
  | .bxor key d => dataPayload (blockXor d key)
  | .splitx ka kb d => dataPayload (splitXor d ka kb)
  | .rot k d => dataPayload (rotate d (offsetValue k))
  | .seedoff d => leBytes 4 (seedOffset d)

theorem responseTo_eq_okResponse (i : Instr) : responseTo i = okResponse i.opcode (okPayload i) := by
  cases i <;> rfl

theorem respond_of_decode_ok {m : Message} {i : Instr} (h : decode m = .ok i) : respond m = responseTo i := by
  simp [respond, h]

theorem respond_of_decode_error {m : Message} {st : Status} (h : decode m = .error st) :
    respond m = errorResponse m st := by
  simp [respond, h]

/-- The response to an encoded command is its own. -/
theorem respond_encode {i : Instr} (hw : i.wellFormed = true) : respond (encode i) = responseTo i :=
  respond_of_decode_ok (decode_encode hw)

theorem validResponse_okResponse (op : Opcode) (p : List Byte) :
    validResponse (okResponse op p) = validPayload op p := by
  have hop : Opcode.ofByte op.code = some op := ofByte_eq_some.mpr rfl
  simp [validResponse, okResponse, responseHeader, Status.code, hop]

theorem validResponse_errorResponse (m : Message) {st : Status} (h : st ≠ .ok) :
    validResponse (errorResponse m st) = true := by
  cases st <;> simp_all [validResponse, errorResponse, responseHeader, Status.code]

/-- The bucket of a `QUANT` response: a multiple of 10, at most 4294967300 (R71, R103). -/
theorem validPayload_quant {c : Nat} (h : c < 4294967296) : validPayload .quant (leBytes 8 (quantize c)) = true := by
  have hle : quantize c ≤ 4294967300 := by simp only [quantize, Config.half, Config.base]; omega
  have hmod : quantize c % 10 = 0 := by simp [quantize]
  have hread : le64 (leBytes 8 (quantize c)) 0 = quantize c := by
    simpa using le64_leBytes [] [] (quantize c) (by omega)
  simp [validPayload, hread, hle, hmod]

/-- The payload of a data command: `LEN` and that many bytes (R71). -/
theorem validPayload_dataPayload {op : Opcode} {out : List Byte} (hdata : op.format.hasData = true)
    (hop : op ≠ .seedoff) (hlen : out.length ≤ 65535) : validPayload op (dataPayload out) = true := by
  have hread : le32 (dataPayload out) 0 = out.length := by
    simpa [dataPayload] using le32_leBytes [] out out.length (by omega)
  cases op with
  | quant | ksgen => cases hdata
  | xstream | bxor | splitx | rot => simp [validPayload, hread, hlen]
  | seedoff => exact absurd rfl hop

/-- The rotation offset of a `SEEDOFF` response: 0 to 25 (R71, R156). -/
theorem validPayload_seedoff (d : List Byte) : validPayload .seedoff (leBytes 4 (seedOffset d)) = true := by
  have hle : seedOffset d ≤ 25 := Nat.le_of_lt_succ (Nat.mod_lt _ (by decide))
  have hread : le32 (leBytes 4 (seedOffset d)) 0 = seedOffset d := by
    simpa using le32_leBytes [] [] (seedOffset d) (by omega)
  simp [validPayload, hread, hle]

/-- A well-formed command's payload has the shape R71 gives its command. -/
theorem validPayload_okPayload {i : Instr} (hw : i.wellFormed = true) : validPayload i.opcode (okPayload i) = true := by
  have hlen : i.data.length ≤ 65535 := wellFormed_iff.mp hw
  cases i with
  | quant count => exact validPayload_quant count.isLt
  | ksgen bucket => simp [validPayload, okPayload, Instr.opcode]
  | xstream ks d => exact validPayload_dataPayload rfl nofun (by simpa [xorStream, Instr.data] using hlen)
  | bxor key d => exact validPayload_dataPayload rfl nofun (by simpa [blockXor, Instr.data] using hlen)
  | splitx ka kb d => exact validPayload_dataPayload rfl nofun (by simpa [splitXor, Instr.data] using hlen)
  | rot k d => exact validPayload_dataPayload rfl nofun (by simpa [rotate, Instr.data] using hlen)
  | seedoff d => exact validPayload_seedoff d

/-- Whatever the message, its response is one the block may give. -/
theorem validResponse_respond (m : Message) : validResponse (respond m) = true := by
  cases h : decode m with
  | ok i =>
    rw [respond_of_decode_ok h, responseTo_eq_okResponse, validResponse_okResponse]
    exact validPayload_okPayload (wellFormed_of_decode h)
  | error st =>
    rw [respond_of_decode_error h]
    exact validResponse_errorResponse m (ne_ok_of_decode_error h)

end Sys2Proof.Machine
end

section
/-! PROOFS. The step, the events and a program's line as equations (`10_state.md` R22, R27, `30_encoding.md` R79), with the
response invariant and the accounting of `20_memory.md` R49 along them. -/

namespace Sys2Proof.Machine

/-- The step takes the oldest command and appends its response. -/
@[simp] theorem step_cons (m : Message) (rest r : List Message) :
    step ⟨m :: rest, r⟩ = .next ⟨rest, r ++ [respond m]⟩ := by
  rcases step_cases ⟨m :: rest, r⟩ with ⟨hnil, -⟩ | ⟨m', rest', hcons, hstep⟩
  · cases hnil
  · cases hcons; exact hstep

theorem State.inv_answer {s : State} {r : Message} (hs : s.Inv) (hr : validResponse r = true) : (s.answer r).Inv := by
  simpa [State.Inv, or_imp, forall_and, hr] using hs

theorem State.reset_inv : State.reset.Inv := by simp [State.Inv]

theorem State.collect_eq_some {s t : State} {r : Message} :
    s.collect = some (r, t) ↔ ∃ rest, s.rspq = r :: rest ∧ t = ⟨s.cmdq, rest⟩ := by
  obtain ⟨c, q⟩ := s
  cases q <;> simp [eq_comm (a := t)]

theorem stepsFrom_length (c r : List Message) :
    stepsFrom c.length ⟨c, r⟩ = .next ⟨[], r ++ c.map respond⟩ := by
  induction c generalizing r with
  | nil => simp [stepsFrom]
  | cons m rest ih => simp [stepsFrom, ih]

theorem Observed.after_block {o o' : Observed} :
    o.after .block = some o' ↔
      ∃ m rest, o.state.cmdq = m :: rest ∧ o' = { o with state := ⟨rest, o.state.rspq ++ [respond m]⟩ } := by
  obtain ⟨⟨c, q⟩, sub, col⟩ := o
  cases c <;> simp [Observed.after, State.enabled, eq_comm (a := o')]

theorem Observed.after_collect {o o' : Observed} :
    o.after .collect = some o' ↔
      ∃ r rest, o.state.rspq = r :: rest ∧
        o' = { o with state := ⟨o.state.cmdq, rest⟩, collected := o.collected ++ [r] } := by
  obtain ⟨⟨c, q⟩, sub, col⟩ := o
  cases q <;> simp [Observed.after, eq_comm (a := o')]

@[simp] theorem Observed.after_submit (o : Observed) (m : Message) :
    o.after (.submit m) = some { o with state := o.state.submit m, submitted := o.submitted ++ [m] } := rfl

@[simp] theorem Observed.after_reset (o : Observed) : o.after .reset = some Observed.start := rfl

theorem Observed.start_accounted : Observed.start.Accounted := by
  simp [Observed.Accounted, Observed.start]

/-- No event loses, merges, reorders or duplicates a response (R49). -/
theorem Observed.Accounted.after {e : Event} {o o' : Observed} (ho : o.Accounted) (h : o.after e = some o') :
    o'.Accounted := by
  cases e with
  | block =>
    obtain ⟨m, rest, hc, rfl⟩ := Observed.after_block.mp h
    simpa [Observed.Accounted, hc] using ho
  | submit m =>
    cases h
    have hsub : o.submitted.map respond = o.collected ++ o.state.rspq ++ o.state.cmdq.map respond := ho
    simp [Observed.Accounted, hsub]
  | collect =>
    obtain ⟨r, rest, hr, rfl⟩ := Observed.after_collect.mp h
    simpa [Observed.Accounted, hr] using ho
  | reset =>
    cases h
    exact Observed.start_accounted

theorem Observed.run_cons {e : Event} {es : List Event} {o o' : Observed} :
    o.run (e :: es) = some o' ↔ ∃ o₁, o.after e = some o₁ ∧ o₁.run es = some o' := by
  cases h : o.after e <;> simp [Observed.run, h]

theorem Observed.Accounted.run {es : List Event} {o o' : Observed} (ho : o.Accounted) (h : o.run es = some o') :
    o'.Accounted := by
  induction es generalizing o with
  | nil => cases h; exact ho
  | cons e es ih =>
    obtain ⟨o₁, hafter, hrun⟩ := Observed.run_cons.mp h
    exact ih (ho.after hafter) hrun

/-- A line run on the empty block: its message is answered, the response is collected, and the block is empty again (R79). -/
theorem runLine_eq_ok {l : Line} {p p' : ProgState} (hp : p.machine = State.reset) :
    runLine l p = .ok p' ↔
      ∃ m, assemble p.env l.command = .ok m ∧
        p' = ⟨State.reset, bindResult l (respond m) p.env, p.responses ++ [respond m]⟩ := by
  cases ha : assemble p.env l.command with
  | error e => simp [runLine, ha]
  | ok m =>
    have hs : p.machine.submit m = ⟨[m], []⟩ := by rw [hp]; rfl
    simp [runLine, ha, hs, State.reset, eq_comm (a := p')]

theorem runProgram_cons {l : Line} {ls : List Line} {p p' : ProgState} :
    runProgram (l :: ls) p = .ok p' ↔ ∃ p₁, runLine l p = .ok p₁ ∧ runProgram ls p₁ = .ok p' := by
  cases h : runLine l p <;> simp [runProgram, h]

/-- A program run on the empty block leaves it empty and collects one response a line (R79). -/
theorem runProgram_machine_responses {ls : List Line} {p p' : ProgState} (hp : p.machine = State.reset)
    (h : runProgram ls p = .ok p') :
    p'.machine = State.reset ∧ p'.responses.length = p.responses.length + ls.length := by
  induction ls generalizing p with
  | nil => cases h; exact ⟨hp, rfl⟩
  | cons l ls ih =>
    obtain ⟨p₁, hline, hrest⟩ := runProgram_cons.mp h
    obtain ⟨m, -, rfl⟩ := (runLine_eq_ok hp).mp hline
    obtain ⟨hm, hlen⟩ := ih rfl hrest
    refine ⟨hm, ?_⟩
    simp only [hlen, List.length_append, List.length_cons, List.length_nil]
    omega

end Sys2Proof.Machine
end

section
/-! PROOFS. The statements about the state, the step and the two agents (`10_state.md`). -/

namespace Sys2Proof.Machine

/-- Settles O13: the one response a step appends is `respond` of the command it took, and that is always valid. -/
theorem stepKeepsResponsesValid : Obligations.StepKeepsResponsesValid := by
  intro s s' hs hstep
  rcases step_cases s with ⟨-, hidle⟩ | ⟨m, rest, -, hnext⟩
  · cases hidle.symm.trans hstep; exact hs
  · cases hnext.symm.trans hstep
    exact State.inv_answer hs (validResponse_respond m)

/-- Settles O5: the step by its equation on a head message, a command by reading its encoding back. -/
theorem stepAppendsRespond : Obligations.StepAppendsRespond := by
  refine ⟨?_, ?_⟩
  · rintro ⟨c, r⟩ m rest rfl
    exact step_cons m rest r
  · intro i hw s
    rw [respond_encode hw, exec_eq_complete]
    rfl

/-- Settles O9, by induction on the waiting commands. -/
theorem drainAnswersEveryCommandInOrder : Obligations.DrainAnswersEveryCommandInOrder :=
  fun s => stepsFrom_length s.cmdq s.rspq

/-- Settles O12: the accounting holds at the start and every event keeps it, and it says what is still to be collected. -/
theorem collectedResponsesFollowSubmissions : Obligations.CollectedResponsesFollowSubmissions := by
  intro es o hrun
  have hacc : o.submitted.map respond = o.collected ++ o.state.rspq ++ o.state.cmdq.map respond :=
    Observed.start_accounted.run hrun
  exact ⟨⟨o.state.rspq ++ o.state.cmdq.map respond, by rw [hacc, List.append_assoc]⟩, hacc⟩

/-- Settles O57, by induction on the lines, from any program state whose block is empty. -/
theorem programLeavesTheBlockEmpty : Obligations.ProgramLeavesTheBlockEmpty := by
  intro ls p hrun
  obtain ⟨hmachine, hlen⟩ := runProgram_machine_responses (p := ProgState.start) rfl hrun
  exact ⟨hmachine, by simpa [ProgState.start] using hlen⟩

/-- Settles O1: the two queues are all the fields there are. -/
theorem resetIsExactlyTheEmptyQueues : Obligations.ResetIsExactlyTheEmptyQueues := by
  refine fun s => ⟨?_, ?_⟩
  · rintro rfl
    exact ⟨State.reset_cmdq, State.reset_rspq⟩
  · rintro ⟨hc, hr⟩
    exact State.ext' hc hr

/-- Settles O2: a reset gives the start, so the events after it run from there. -/
theorem resetForgetsTheWholeHistory : Obligations.ResetForgetsTheWholeHistory :=
  fun o _ => ⟨Observed.after_reset o, rfl⟩

/-- Settles O3: the step is the command's own completion with the response of the message it was decoded from. -/
theorem stepRunsTheDecodedCommand : Obligations.StepRunsTheDecodedCommand := by
  rintro ⟨c, r⟩ m rest i rfl hdecode
  rw [step_cons, respond_of_decode_ok hdecode, exec_eq_complete]
  rfl

/-- Settles O7, by what each event does where it is enabled. -/
theorem eventsAreEnabledExactlyWhen : Obligations.EventsAreEnabledExactlyWhen := by
  refine fun o => ⟨?_, ?_, fun m => ⟨_, o.after_submit m⟩, ⟨_, o.after_reset⟩⟩
  · simp [Observed.after_block, List.ne_nil_iff_exists_cons]
  · simp [Observed.after_collect, List.ne_nil_iff_exists_cons]

/-- Settles O14: only `collect` and `reset` touch the response queue, and they only remove from it. -/
theorem hostActionsKeepResponsesValid : Obligations.HostActionsKeepResponsesValid := by
  refine ⟨State.reset_inv, fun s hs => ⟨fun m => ?_, State.reset_inv, fun r t hcollect => ?_⟩⟩
  · simpa [State.Inv] using hs
  · obtain ⟨rest, hr, rfl⟩ := State.collect_eq_some.mp hcollect
    simp only [State.Inv, hr, List.forall_mem_cons] at hs
    obtain ⟨hhead, hrest⟩ := hs
    exact ⟨hrest, hhead⟩

/-- Settles O15: a command completes with an `OK` response, whose first four bytes are the header. -/
theorem execAppendsOneOkResponse : Obligations.ExecAppendsOneOkResponse := by
  intro i s t h
  rw [exec_eq_complete, complete_next, responseTo_eq_okResponse] at h
  subst h
  exact ⟨rfl, okPayload i, rfl⟩

end Sys2Proof.Machine
end

section
/-! PROOFS. The statements about the order of commands and responses (`20_memory.md` R49, R50). -/

namespace Sys2Proof.Machine

/-- The step inverted on a known oldest command: only that command's bytes decide what is appended (R22). -/
theorem step_eq_next_of_cmdq_cons {s t : State} {m : Message} {rest : List Message} (hs : s.cmdq = m :: rest) :
    step s = .next t ↔ t = ⟨rest, s.rspq ++ [respond m]⟩ := by
  obtain ⟨c, r⟩ := s
  subst hs
  simp [eq_comm (a := t)]

/-- Settles O10: the one response both steps append is `respond` of the common oldest command. -/
theorem responseIndependentOfHistory : Obligations.ResponseIndependentOfHistory := by
  intro s s' t t' m rest rest' hs hs' hstep hstep'
  obtain rfl := (step_eq_next_of_cmdq_cons hs).mp hstep
  obtain rfl := (step_eq_next_of_cmdq_cons hs').mp hstep'
  exact ⟨respond m, rfl, rfl, rfl, rfl⟩

/-- Settles O11, by the case split over the events in `Observed.Accounted.after`: a step turns the oldest waiting command into
the newest response, a submission adds one command to both sides, and a collection moves the oldest response across. -/
theorem eventsKeepTheAccounting : Obligations.EventsKeepTheAccounting :=
  fun _ _ _ hacc hafter => hacc.after hafter

end Sys2Proof.Machine
end

section
/-! PROOFS. The decoder against the encoder: an accepted message is cut at its field borders, and each piece is what the
encoder writes for the field (`30_encoding.md` R61 to R65, R67). -/

namespace Sys2Proof

theorem slice_eq_map_byteAt {m : Message} {base len : Nat} (h : base + len ≤ m.length) :
    slice m base len = (List.range len).map fun j => byteAt m (base + j) := by
  apply List.ext_getElem
  · simp; omega
  · intro j hj _
    have hj' : base + j < m.length := by simp at hj; omega
    simp [slice, byteAt_eq_getElem hj']

/-- A message read field by field: the bytes before a field, then the field. -/
theorem take_append_slice (m : Message) (base len : Nat) : m.take base ++ slice m base len = m.take (base + len) := by
  rw [slice, List.take_add]

/-- Four bytes are the little-endian field of their own value (R9). -/
theorem leBytes_four_of_bytes (b0 b1 b2 b3 : Byte) :
    leBytes 4 (b0.toNat + 256 * b1.toNat + 65536 * b2.toNat + 16777216 * b3.toNat) = [b0, b1, b2, b3] := by
  simp only [leBytes_four, List.cons.injEq, and_true]
  refine ⟨?_, ?_, ?_, ?_⟩ <;> apply BitVec.eq_of_toNat_eq <;> rw [BitVec.toNat_ofNat] <;> omega

theorem leBytes_four_mod (v : Nat) : leBytes 4 (v % 4294967296) = leBytes 4 v := by
  simp only [leBytes_four, List.cons.injEq, and_true]
  refine ⟨?_, ?_, ?_, ?_⟩ <;> congr 1 <;> omega

/-- A field read by `le32` and written again. -/
theorem leBytes_le32 {m : Message} {k : Nat} (h : k + 4 ≤ m.length) : leBytes 4 (le32 m k) = slice m k 4 := by
  rw [le32, leBytes_four_of_bytes, slice_eq_map_byteAt h]
  rfl

theorem leBytes_le64 {m : Message} {k : Nat} (h : k + 8 ≤ m.length) : leBytes 8 (le64 m k) = slice m k 8 := by
  have hlt := le32_lt m k
  have low : leBytes 4 (le64 m k) = leBytes 4 (le32 m k) := by
    rw [← leBytes_four_mod, le64]; congr 1; omega
  have high : le64 m k / 4294967296 = le32 m (k + 4) := by rw [le64]; omega
  rw [leBytes_eight, low, high, leBytes_le32 (by omega), leBytes_le32 (by omega), slice_eq_map_byteAt h,
    slice_eq_map_byteAt (by omega), slice_eq_map_byteAt (by omega)]
  rfl

theorem keyAt_eq_slice {m : Message} {base : Nat} (h : base + 16 ≤ m.length) :
    (keyAt m base).toList = slice m base 16 := by
  rw [keyAt, Vector.toList_ofFn, slice_eq_map_byteAt h]
  rfl

/-- Check 3 passes exactly when the reserved header bytes of the command are zero (R61, R67). -/
theorem reservedNonzero_eq_false {op : Opcode} {m : Message} :
    reservedNonzero op m = false ↔ byteAt m 3 = 0 ∧ (op = .splitx ∨ byteAt m 1 = 0 ∧ byteAt m 2 = 0) := by
  cases op <;> simp [reservedNonzero]

theorem take_four {m : Message} (h : 4 ≤ m.length) :
    m.take 4 = [byteAt m 0, byteAt m 1, byteAt m 2, byteAt m 3] :=
  (slice_eq_map_byteAt (m := m) (base := 0) (by omega)).trans rfl

/-- Behind checks 1 to 3, the header of every command but `SPLITX` is its opcode and three zero bytes (R61). -/
theorem header_eq_take {op : Opcode} {m : Message} (h4 : 4 ≤ m.length) (hcode : byteAt m 0 = op.code)
    (hres : reservedNonzero op m = false) (hop : op ≠ .splitx) : header op = m.take 4 := by
  obtain ⟨h3, h12⟩ := reservedNonzero_eq_false.mp hres
  obtain ⟨h1, h2⟩ := h12.resolve_left hop
  rw [take_four h4, header, hcode, h1, h2, h3]

/-- The header of `SPLITX` is its opcode, the two keys and a zero byte (R61, R63). -/
theorem splitx_header_eq_take {m : Message} (h4 : 4 ≤ m.length) (hcode : byteAt m 0 = Opcode.splitx.code)
    (hres : reservedNonzero .splitx m = false) : [Opcode.splitx.code, byteAt m 1, byteAt m 2, 0] = m.take 4 := by
  obtain ⟨h3, -⟩ := reservedNonzero_eq_false.mp hres
  rw [take_four h4, hcode, h3]

/-- The length a scalar format requires (R60). -/
theorem length_of_sizeError_scalar {f : Format} {m : Message} (hf : f.hasData = false) (h : sizeError f m = none) :
    m.length = f.fixedLength := by
  simpa [hf] using sizeError_eq_none.mp h

/-- The length a format with data requires, its `LEN` field present (R60). -/
theorem length_of_sizeError_data {f : Format} {m : Message} (hf : f.hasData = true) (h : sizeError f m = none) :
    8 ≤ m.length ∧ m.length = f.fixedLength + le32 m 4 := by
  obtain ⟨-, h8, -, hlen⟩ | ⟨hscalar, -⟩ := sizeError_eq_none.mp h
  · exact ⟨h8, hlen⟩
  · cases hf.symm.trans hscalar

/-- The `LEN` field of the data a message carries is the message's own. -/
theorem lenField_slice {m : Message} {base : Nat} (h8 : 8 ≤ m.length) (hlen : m.length = base + le32 m 4) :
    lenField (slice m base (le32 m 4)) = slice m 4 4 := by
  have hn : (slice m base (le32 m 4)).length = le32 m 4 := by rw [slice_length]; omega
  rw [lenField, hn, leBytes_le32 h8]

/-- The fields of a checked message, encoded again, are the message: no bit of it is ignored. -/
theorem encode_fields {op : Opcode} {m : Message} (h4 : 4 ≤ m.length) (hcode : byteAt m 0 = op.code)
    (hres : reservedNonzero op m = false) (hsize : sizeError op.format m = none) : encode (fields op m) = m := by
  have hheader := header_eq_take h4 hcode hres
  cases op with
  | quant =>
    have hlen : m.length = 8 := length_of_sizeError_scalar rfl hsize
    calc encode (fields .quant m) = m.take 4 ++ slice m 4 4 := by
          simp only [fields, encode, hheader nofun, BitVec.toNat_ofNat, Nat.reducePow, Nat.mod_eq_of_lt (le32_lt m 4),
            leBytes_le32 hlen.ge]
      _ = m := by simp [take_append_slice, ← hlen]
  | ksgen =>
    have hlen : m.length = 12 := length_of_sizeError_scalar rfl hsize
    calc encode (fields .ksgen m) = m.take 4 ++ slice m 4 8 := by
          simp only [fields, encode, hheader nofun, BitVec.toNat_ofNat, Nat.reducePow, Nat.mod_eq_of_lt (le64_lt m 4),
            leBytes_le64 hlen.ge]
      _ = m := by simp [take_append_slice, ← hlen]
  | xstream | bxor =>
    obtain ⟨h8, hlen : m.length = 24 + le32 m 4⟩ := length_of_sizeError_data rfl hsize
    calc encode (fields _ m) = m.take 4 ++ slice m 4 4 ++ slice m 8 16 ++ slice m 24 (le32 m 4) := by
          simp only [fields, encode, hheader nofun, lenField_slice h8 hlen,
            keyAt_eq_slice (show 8 + 16 ≤ m.length by omega)]
      _ = m := by simp [take_append_slice, ← hlen]
  | splitx =>
    obtain ⟨h8, hlen : m.length = 8 + le32 m 4⟩ := length_of_sizeError_data rfl hsize
    calc encode (fields .splitx m) = m.take 4 ++ slice m 4 4 ++ slice m 8 (le32 m 4) := by
          simp only [fields, encode, splitx_header_eq_take h4 hcode hres, lenField_slice h8 hlen]
      _ = m := by simp [take_append_slice, ← hlen]
  | rot =>
    obtain ⟨h8, hlen : m.length = 12 + le32 m 4⟩ := length_of_sizeError_data rfl hsize
    calc encode (fields .rot m) = m.take 4 ++ slice m 4 4 ++ slice m 8 4 ++ slice m 12 (le32 m 4) := by
          simp only [fields, encode, hheader nofun, lenField_slice h8 hlen, BitVec.toNat_ofNat, Nat.reducePow,
            Nat.mod_eq_of_lt (le32_lt m 8), leBytes_le32 (show 8 + 4 ≤ m.length by omega)]
      _ = m := by simp [take_append_slice, ← hlen]
  | seedoff =>
    obtain ⟨h8, hlen : m.length = 8 + le32 m 4⟩ := length_of_sizeError_data rfl hsize
    calc encode (fields .seedoff m) = m.take 4 ++ slice m 4 4 ++ slice m 8 (le32 m 4) := by
          simp only [fields, encode, hheader nofun, lenField_slice h8 hlen]
      _ = m := by simp [take_append_slice, ← hlen]

/-- A message the decoder accepts is the encoding of what it decodes to. -/
theorem encode_of_decode {m : Message} {i : Instr} (h : decode m = .ok i) : encode i = m := by
  obtain ⟨op, h4, hop, hres, hsize, rfl⟩ := decode_eq_ok.mp h
  exact encode_fields h4 (ofByte_eq_some.mp hop) hres hsize

end Sys2Proof
end

section
/-! PROOFS. The statements about the message formats and the opcode map (`30_encoding.md` R60 to R69). -/

namespace Sys2Proof

/-- The shortest and the longest command (R60). -/
theorem encode_length_bounds {i : Instr} (hw : i.wellFormed = true) :
    8 ≤ (encode i).length ∧ (encode i).length ≤ 65559 := by
  refine ⟨eight_le_encode_length i, ?_⟩
  have hdata := wellFormed_iff.mp hw
  have hfixed : i.opcode.format.fixedLength ≤ 24 := by cases i.opcode.format <;> decide
  rw [encode_length]
  omega

/-- Four bytes whose little-endian value is the length of the data are its `LEN` field. -/
theorem lenField_of_bytes {l0 l1 l2 l3 : Byte} {d : List Byte}
    (h : l0.toNat + 256 * l1.toNat + 65536 * l2.toNat + 16777216 * l3.toNat = d.length) :
    lenField d = [l0, l1, l2, l3] := by
  rw [lenField, ← h, leBytes_four_of_bytes]

/-- Of the header word only bytes 0 and 3 are left by `SPLITX`'s mask (R66). -/
theorem and_splitx_mask (b0 b1 b2 b3 : Byte) :
    (b0.toNat + 256 * b1.toNat + 65536 * b2.toNat + 16777216 * b3.toNat) &&& 0xFF0000FF =
      b0.toNat + 16777216 * b3.toNat := by
  generalize hx : b0.toNat + 256 * b1.toNat + 65536 * b2.toNat + 16777216 * b3.toNat = x
  have low : (x &&& 0xFF0000FF) % 2 ^ 8 = x % 2 ^ 8 % 2 ^ 8 := by
    rw [Nat.and_mod_two_pow, ← Nat.and_two_pow_sub_one_eq_mod (x % 2 ^ 8)]
  have middle : (x &&& 0xFF0000FF) / 2 ^ 8 % 2 ^ 16 = 0 := by
    rw [Nat.and_div_two_pow, Nat.and_mod_two_pow]
    exact Nat.and_zero _
  have high : (x &&& 0xFF0000FF) / 2 ^ 24 = x / 2 ^ 24 % 2 ^ 8 := by
    rw [Nat.and_div_two_pow, ← Nat.and_two_pow_sub_one_eq_mod (x / 2 ^ 24)]
  omega

/-- The header word under a command's mask is the command's match exactly when byte 0 is its opcode and its reserved bytes
are zero (R66). -/
theorem header_word_match_iff (m : Message) (op : Opcode) :
    le32 m 0 &&& op.maskWord = op.matchWord ↔ byteAt m 0 = op.code ∧ reservedNonzero op m = false := by
  have hword : le32 m 0 = (byteAt m 0).toNat + 256 * (byteAt m 1).toNat + 65536 * (byteAt m 2).toNat
      + 16777216 * (byteAt m 3).toNat := rfl
  have full : le32 m 0 &&& 0xFFFFFFFF = le32 m 0 :=
    (Nat.and_two_pow_sub_one_eq_mod _ 32).trans (Nat.mod_eq_of_lt (le32_lt m 0))
  have hmatch : op.matchWord = op.code.toNat := by cases op <;> rfl
  have hcode : op.code.toNat < 256 := op.code.isLt
  simp only [reservedNonzero_eq_false, hmatch, ← BitVec.toNat_inj]
  by_cases hop : op = .splitx
  · subst hop
    rw [Opcode.maskWord, hword, and_splitx_mask]
    simp only [true_or, and_true, BitVec.ofNat_eq_ofNat, BitVec.toNat_ofNat]
    omega
  · have hmask : op.maskWord = 0xFFFFFFFF := by
      cases op with
      | splitx => exact absurd rfl hop
      | _ => rfl
    rw [hmask, full, hword]
    simp only [hop, false_or, BitVec.ofNat_eq_ofNat, BitVec.toNat_ofNat]
    omega

/-- Settles O16, by `decode_encode`: each of the decoder's checks passes on an encoding, and the fields are read back. -/
theorem decodeReadsBackEveryEncoding : Obligations.DecodeReadsBackEveryEncoding :=
  fun _ hw => decode_encode hw

/-- Settles O17: the decoder checked `LEN`, and the fields of a checked message are the whole message. -/
theorem decodeAcceptsOnlyEncodings : Obligations.DecodeAcceptsOnlyEncodings :=
  fun _ _ h => ⟨wellFormed_of_decode h, encode_of_decode h⟩

/-- Settles O21: the message is the command's encoding, which is read back. -/
theorem keyFormatDecodes : Obligations.KeyFormatDecodes := by
  intro l0 l1 l2 l3 k d hlen hd
  have hx : [0x03, 0, 0, 0, l0, l1, l2, l3] ++ k.toList ++ d = encode (.xstream k d) := by
    rw [encode, lenField_of_bytes hlen]; rfl
  have hb : [0x04, 0, 0, 0, l0, l1, l2, l3] ++ k.toList ++ d = encode (.bxor k d) := by
    rw [encode, lenField_of_bytes hlen]; rfl
  rw [hx, hb]
  exact ⟨decode_encode (wellFormed_iff.mpr hd), decode_encode (wellFormed_iff.mpr hd)⟩

/-- Settles O22: the four offset bytes are the little-endian field of their value, which `sext_32` reads as signed. -/
theorem rotationFormatDecodes : Obligations.RotationFormatDecodes := by
  intro l0 l1 l2 l3 o0 o1 o2 o3 d hlen hd
  have hlt : o0.toNat + 256 * o1.toNat + 65536 * o2.toNat + 16777216 * o3.toNat < 2 ^ 32 := by omega
  refine ⟨BitVec.ofNat 32 (o0.toNat + 256 * o1.toNat + 65536 * o2.toNat + 16777216 * o3.toNat), ?_, ?_⟩
  · rw [← decode_encode (i := .rot _ d) (wellFormed_iff.mpr hd), encode, lenField_of_bytes hlen, BitVec.toNat_ofNat,
      Nat.mod_eq_of_lt hlt, leBytes_four_of_bytes]
    rfl
  · simp only [offsetValue, sext, BitVec.toNat_ofNat, Nat.mod_eq_of_lt hlt]
    rfl

/-- Settles O24, by `header_word_match_iff`; the table is read off the definitions. -/
theorem headerSelectsCommandByMask : Obligations.HeaderSelectsCommandByMask := by
  refine ⟨rfl, fun m op _ => ?_, fun b => ?_⟩
  · rw [ofByte_eq_some]
    exact header_word_match_iff m op
  · rw [ofByte_eq_none, ← BitVec.toNat_inj]
    rfl

/-- Settles O18: each message is decoded as it stands. -/
theorem writtenOutWordsDecode : Obligations.WrittenOutWordsDecode := by
  refine ⟨?_, ?_, ?_, ?_, ?_, ?_, ?_⟩ <;> decide

/-- Settles O19: the operand bytes are the little-endian field of their value. -/
theorem scalarFormatsDecode : Obligations.ScalarFormatsDecode := by
  intro b0 b1 b2 b3 b4 b5 b6 b7
  refine ⟨⟨BitVec.ofNat 32 (le32 [b0, b1, b2, b3] 0), ?_, ?_⟩,
    ⟨BitVec.ofNat 64 (le64 [b0, b1, b2, b3, b4, b5, b6, b7] 0), ?_, ?_⟩⟩
  · rw [← decode_encode (i := .quant _) rfl, encode, BitVec.toNat_ofNat, Nat.mod_eq_of_lt (le32_lt _ _),
      leBytes_le32 (by simp)]
    rfl
  · rw [BitVec.toNat_ofNat, Nat.mod_eq_of_lt (le32_lt _ _)]
    rfl
  · rw [← decode_encode (i := .ksgen _) rfl, encode, BitVec.toNat_ofNat, Nat.mod_eq_of_lt (le64_lt _ _),
      leBytes_le64 (by simp)]
    rfl
  · rw [BitVec.toNat_ofNat, Nat.mod_eq_of_lt (le64_lt _ _)]
    rfl

/-- Settles O20: the message is the command's encoding, which is read back. -/
theorem dataFormatDecodes : Obligations.DataFormatDecodes := by
  intro ka kb l0 l1 l2 l3 d hlen hd
  have hx : [0x05, ka, kb, 0, l0, l1, l2, l3] ++ d = encode (.splitx ka kb d) := by
    rw [encode, lenField_of_bytes hlen]; rfl
  have hs : [0x07, 0, 0, 0, l0, l1, l2, l3] ++ d = encode (.seedoff d) := by
    rw [encode, lenField_of_bytes hlen]; rfl
  rw [hx, hs]
  exact ⟨decode_encode (wellFormed_iff.mpr hd), decode_encode (wellFormed_iff.mpr hd)⟩

/-- Settles O23: an encoding has its format's length, and an accepted message is an encoding. -/
theorem encodedLengthIsTheFormats : Obligations.EncodedLengthIsTheFormats := by
  refine ⟨fun c b k ka kb o d => ?_, fun m i h => ?_⟩
  · exact ⟨encode_length _, encode_length _, encode_length _, encode_length _, encode_length _, encode_length _,
      encode_length _⟩
  · rw [← encode_of_decode h]
    exact encode_length_bounds (wellFormed_of_decode h)

end Sys2Proof
end

section
/-! PROOFS. The four data transforms and the responses that carry their results: as many bytes as the operand has
(`30_encoding.md` R71). -/

namespace Sys2Proof.Machine

@[simp] theorem xorStream_length (d : List Byte) (ks : Key) : (xorStream d ks).length = d.length := mapBytes_length _ d

@[simp] theorem blockXor_length (d : List Byte) (key : Key) : (blockXor d key).length = d.length := mapBytes_length _ d

@[simp] theorem splitXor_length (d : List Byte) (ka kb : Byte) : (splitXor d ka kb).length = d.length :=
  mapBytes_length _ d

@[simp] theorem rotate_length (d : List Byte) (k : Int) : (rotate d k).length = d.length := mapBytes_length _ d

/-- The second pass meets the same chunk key at every index, since the length is kept (R140). -/
theorem splitXor_splitXor (d : List Byte) (ka kb : Byte) : splitXor (splitXor d ka kb) ka kb = d := by
  rw [splitXor, splitXor_length, splitXor, mapBytes_mapBytes]
  simp only [BitVec.xor_assoc, BitVec.xor_self, BitVec.xor_zero]
  exact mapBytes_id d

/-- The length and the `LEN` field of the response to an encoded command whose payload is `out` (R71). -/
theorem respond_encode_data {i : Instr} {out : List Byte} (hw : i.wellFormed = true)
    (hpayload : okPayload i = dataPayload out) (hout : out.length ≤ 65535) :
    (respond (encode i)).length = 8 + out.length ∧ le32 (respond (encode i)) 4 = out.length := by
  rw [respond_encode hw, responseTo_eq_okResponse, hpayload]
  refine ⟨?_, okResponse_dataPayload_len _ _ (by omega)⟩
  rw [okResponse_length, dataPayload_length]
  omega

/-- Settles O45: each transform maps byte by byte, and a data response carries its result behind the result's length. -/
theorem dataCommandsPreserveLength : Obligations.DataCommandsPreserveLength := by
  intro k ka kb o n d
  refine ⟨xorStream_length d k, blockXor_length d k, splitXor_length d ka kb, rotate_length d n, fun hd i hi => ?_⟩
  rcases hi with rfl | rfl | rfl | rfl
  · simpa using respond_encode_data (i := .xstream k d) (wellFormed_iff.mpr hd) rfl (by simpa using hd)
  · simpa using respond_encode_data (i := .bxor k d) (wellFormed_iff.mpr hd) rfl (by simpa using hd)
  · simpa using respond_encode_data (i := .splitx ka kb d) (wellFormed_iff.mpr hd) rfl (by simpa using hd)
  · simpa using respond_encode_data (i := .rot o d) (wellFormed_iff.mpr hd) rfl (by simpa using hd)

end Sys2Proof.Machine
end

section
/-! PROOFS. The assembler (`30_encoding.md` R76 to R78): when an operand is taken, when a line has an expansion, and the
message it builds. -/

namespace Sys2Proof.Machine

section
variable {env : Bindings} {a b c d : Operand} {i : Instr}

/-- A sequence of the assembler's checks succeeds exactly when each does. -/
theorem bind_eq_ok {α β : Type} {x : Except AsmError α} {f : α → Except AsmError β} {y : β} :
    (x >>= f) = .ok y ↔ ∃ v, x = .ok v ∧ f v = .ok y := by
  cases x <;> simp [bind, Except.bind]

@[simp] theorem resolve_lit (env : Bindings) (v : Value) : resolve env (.lit v) = .ok v := rfl

@[simp] theorem resolve_name {x : Name} {v : Value} : resolve env (.name x) = .ok v ↔ lookup x env = some v := by
  cases h : lookup x env <;> simp [resolve, h]

theorem intOperand_eq_ok {lo hi v : Int} {e : AsmError} :
    intOperand env lo hi e a = .ok v ↔ resolve env a = .ok (.int v) ∧ lo ≤ v ∧ v ≤ hi := by
  cases h : resolve env a with
  | error => simp [intOperand, h]
  | ok w =>
    cases w with
    | bytes => simp [intOperand, h]
    | int w =>
      by_cases hw : lo ≤ w ∧ w ≤ hi
      · simp only [intOperand, h, hw, and_self, if_true, Except.ok.injEq, Value.int.injEq]
        constructor
        · rintro rfl; exact ⟨rfl, hw⟩
        · exact And.left
      · simp only [intOperand, h, hw, if_false, Except.ok.injEq, Value.int.injEq, reduceCtorEq, false_iff]
        rintro ⟨rfl, hv⟩; exact hw hv

theorem bytesOperand_eq_ok {x : List Byte} : bytesOperand env a = .ok x ↔ resolve env a = .ok (.bytes x) := by
  cases h : resolve env a with
  | error => simp [bytesOperand, h]
  | ok w => cases w <;> simp [bytesOperand, h]

theorem dataOperand_eq_ok {x : List Byte} :
    dataOperand env a = .ok x ↔ resolve env a = .ok (.bytes x) ∧ x.length ≤ 65535 := by
  simp only [dataOperand, bind_eq_ok, bytesOperand_eq_ok]
  constructor
  · rintro ⟨y, hy, hx⟩
    split_ifs at hx with hlen
    cases hx
    exact ⟨hy, hlen⟩
  · rintro ⟨hx, hlen⟩
    exact ⟨x, hx, if_pos hlen⟩

theorem keyOperand_eq_ok {k : Key} : keyOperand env a = .ok k ↔ resolve env a = .ok (.bytes k.toList) := by
  simp only [keyOperand, bind_eq_ok, bytesOperand_eq_ok]
  constructor
  · rintro ⟨y, hy, hk⟩
    split_ifs at hk with hlen
    cases hk
    exact hy
  · intro hk
    exact ⟨k.toList, hk, by simp [Vector.toList]⟩

theorem keyByteOperand_eq_ok {x : Byte} :
    keyByteOperand env a = .ok x ↔ ∃ v, (resolve env a = .ok (.int v) ∧ 0 ≤ v ∧ v ≤ 255) ∧ BitVec.ofInt 8 v = x := by
  simp [keyByteOperand, bind_eq_ok, intOperand_eq_ok]

theorem offsetOperand_eq_ok {lo v : Int} :
    offsetOperand env lo a = .ok v ↔ resolve env a = .ok (.int v) ∧ lo ≤ v ∧ v ≤ 2147483647 :=
  intOperand_eq_ok

theorem expandLine_quant :
    expandLine env (.quant c) = .ok (some i) ↔
      ∃ v, intOperand env 0 4294967295 .countRange c = .ok v ∧ .quant (BitVec.ofInt 32 v) = i := by
  simp [expandLine, bind_eq_ok]

theorem expandLine_ksgen :
    expandLine env (.ksgen b) = .ok (some i) ↔
      ∃ v, intOperand env 0 18446744073709551615 .bucketRange b = .ok v ∧ .ksgen (BitVec.ofInt 64 v) = i := by
  simp [expandLine, bind_eq_ok]

theorem expandLine_xstream :
    expandLine env (.xstream a d) = .ok (some i) ↔
      ∃ k, keyOperand env a = .ok k ∧ ∃ x, dataOperand env d = .ok x ∧ .xstream k x = i := by
  simp [expandLine, bind_eq_ok]

theorem expandLine_bxor :
    expandLine env (.bxor a d) = .ok (some i) ↔
      ∃ k, keyOperand env a = .ok k ∧ ∃ x, dataOperand env d = .ok x ∧ .bxor k x = i := by
  simp [expandLine, bind_eq_ok]

theorem expandLine_splitx :
    expandLine env (.splitx a b d) = .ok (some i) ↔
      ∃ ka, keyByteOperand env a = .ok ka ∧ ∃ kb, keyByteOperand env b = .ok kb ∧
        ∃ x, dataOperand env d = .ok x ∧ .splitx ka kb x = i := by
  simp [expandLine, bind_eq_ok]

theorem expandLine_rot :
    expandLine env (.rot a d) = .ok (some i) ↔
      ∃ v, offsetOperand env (-2147483648) a = .ok v ∧ ∃ x, dataOperand env d = .ok x ∧ .rot (BitVec.ofInt 32 v) x = i := by
  simp [expandLine, bind_eq_ok]

theorem expandLine_seedoff :
    expandLine env (.seedoff d) = .ok (some i) ↔ ∃ x, dataOperand env d = .ok x ∧ .seedoff x = i := by
  simp [expandLine, bind_eq_ok]

theorem expandLine_unrot :
    expandLine env (.unrot a d) = .ok (some i) ↔
      ∃ v, offsetOperand env (-2147483647) a = .ok v ∧
        ∃ x, dataOperand env d = .ok x ∧ .rot (BitVec.ofInt 32 (-v)) x = i := by
  simp [expandLine, bind_eq_ok]

/-- `SPLITX.F` is `SPLITX` with the two fixed keys, its errors included (R78). -/
theorem expandLine_splitxF (env : Bindings) (d : Operand) :
    expandLine env (.splitxF d) = expandLine env (.splitx (.lit (.int 0x66)) (.lit (.int 0x77)) d) := rfl

end

/-- Within its range `UNROT` is `ROT` of the negated offset, its errors included (R78). -/
theorem expandLine_unrot_lit (env : Bindings) {k : Int} (d : Operand) (hlo : -2147483647 ≤ k) (hhi : k ≤ 2147483647) :
    expandLine env (.unrot (.lit (.int k)) d) = expandLine env (.rot (.lit (.int (-k))) d) := by
  have hunrot : offsetOperand env (-2147483647) (.lit (.int k)) = .ok k :=
    offsetOperand_eq_ok.mpr ⟨rfl, hlo, hhi⟩
  have hrot : offsetOperand env (-2147483648) (.lit (.int (-k))) = .ok (-k) :=
    offsetOperand_eq_ok.mpr ⟨rfl, by omega, by omega⟩
  rw [expandLine, expandLine, hunrot, hrot]
  rfl

/-- Every line but `RAW` has a command or is rejected. -/
theorem expandLine_eq_none {env : Bindings} {c : AsmCommand} (h : expandLine env c = .ok none) : ∃ m, c = .raw m := by
  cases c with
  | raw m => exact ⟨m, rfl⟩
  | _ => simp [expandLine, bind_eq_ok] at h

/-- The assembler lets through no command with more data than a message carries (R76). -/
theorem wellFormed_of_expandLine {env : Bindings} {c : AsmCommand} {i : Instr} (h : expandLine env c = .ok (some i)) :
    i.wellFormed = true := by
  have ofData {d : Operand} {x : List Byte} (hx : dataOperand env d = .ok x) : x.length ≤ 65535 :=
    (dataOperand_eq_ok.mp hx).right
  rw [wellFormed_iff]
  cases c with
  | quant => obtain ⟨v, -, rfl⟩ := expandLine_quant.mp h; exact Nat.zero_le _
  | ksgen => obtain ⟨v, -, rfl⟩ := expandLine_ksgen.mp h; exact Nat.zero_le _
  | xstream => obtain ⟨k, -, x, hx, rfl⟩ := expandLine_xstream.mp h; exact ofData hx
  | bxor => obtain ⟨k, -, x, hx, rfl⟩ := expandLine_bxor.mp h; exact ofData hx
  | splitx => obtain ⟨ka, -, kb, -, x, hx, rfl⟩ := expandLine_splitx.mp h; exact ofData hx
  | rot => obtain ⟨v, -, x, hx, rfl⟩ := expandLine_rot.mp h; exact ofData hx
  | seedoff => obtain ⟨x, hx, rfl⟩ := expandLine_seedoff.mp h; exact ofData hx
  | splitxF =>
    rw [expandLine_splitxF] at h
    obtain ⟨ka, -, kb, -, x, hx, rfl⟩ := expandLine_splitx.mp h; exact ofData hx
  | unrot => obtain ⟨v, -, x, hx, rfl⟩ := expandLine_unrot.mp h; exact ofData hx
  | raw => cases h

/-- A line but `RAW` builds the encoding of its expansion. -/
theorem assemble_of_ne_raw {env : Bindings} {c : AsmCommand} {m : Message} (hc : ∀ w, c ≠ .raw w) :
    assemble env c = .ok m ↔ ∃ i, expandLine env c = .ok (some i) ∧ encode i = m := by
  cases c with
  | raw w => exact absurd rfl (hc w)
  | _ =>
    simp only [assemble]
    split <;> simp_all

/-- A line but `RAW` is taken exactly when it has an expansion. -/
theorem exists_assemble_iff {env : Bindings} {c : AsmCommand} (hc : ∀ w, c ≠ .raw w) :
    (∃ m, assemble env c = .ok m) ↔ ∃ i, expandLine env c = .ok (some i) := by
  simp [assemble_of_ne_raw hc]

theorem exists_key_toList_iff {k : List Byte} : (∃ key : Key, k = key.toList) ↔ k.length = 16 := by
  constructor
  · rintro ⟨key, rfl⟩; simp
  · intro hk; exact ⟨⟨k.toArray, by simpa using hk⟩, by simp⟩

/-- Which literals each operand check takes (R76). -/
theorem exists_intOperand_lit {env : Bindings} {lo hi v : Int} {e : AsmError} :
    (∃ w, intOperand env lo hi e (.lit (.int v)) = .ok w) ↔ lo ≤ v ∧ v ≤ hi := by
  simp [intOperand_eq_ok]

theorem exists_keyByteOperand_lit {env : Bindings} {v : Int} :
    (∃ x, keyByteOperand env (.lit (.int v)) = .ok x) ↔ 0 ≤ v ∧ v ≤ 255 := by
  simp [keyByteOperand_eq_ok]

theorem exists_keyOperand_lit {env : Bindings} {k : List Byte} :
    (∃ key, keyOperand env (.lit (.bytes k)) = .ok key) ↔ k.length = 16 := by
  simp [keyOperand_eq_ok, exists_key_toList_iff]

theorem exists_dataOperand_lit {env : Bindings} {d : List Byte} :
    (∃ x, dataOperand env (.lit (.bytes d)) = .ok x) ↔ d.length ≤ 65535 := by
  simp [dataOperand_eq_ok]

end Sys2Proof.Machine
end

section
/-! PROOFS. What a line of a program binds, and the host's sequences as chains of such lines (`30_encoding.md` R76, R79,
`46_laws_and_host_sequences.md` R180, R182). -/

namespace Sys2Proof.Machine

/-- The value a command's `OK` response binds (R76, last column); `primaryResult_responseTo` ties it to the model. -/
def boundValue : Instr → Value
  | .quant count => .int (quantize count.toNat)
  | .ksgen bucket => .bytes (deriveKeystream bucket.toNat).toList
  | .xstream ks d => .bytes (xorStream d ks)
  | .bxor key d => .bytes (blockXor d key)
  | .splitx ka kb d => .bytes (splitXor d ka kb)
  | .rot k d => .bytes (rotate d (offsetValue k))
  | .seedoff d => .int (seedOffset d)

theorem okResponse_byteAt_zero (op : Opcode) (p : List Byte) : byteAt (okResponse op p) 0 = op.code := rfl

theorem okResponse_byteAt_one (op : Opcode) (p : List Byte) : byteAt (okResponse op p) 1 = Status.ok.code := rfl

/-- A data response binds its result bytes. -/
theorem primaryResult_dataPayload {op : Opcode} {out : List Byte} (hdata : op.format.hasData = true)
    (hop : op ≠ .seedoff) (hlen : out.length ≤ 65535) :
    primaryResult (okResponse op (dataPayload out)) = some (.bytes out) := by
  have hout : slice (okResponse op (dataPayload out)) 8 out.length = out :=
    slice_append (responseHeader op.code .ok ++ leBytes 4 out.length) out
  simp only [primaryResult, okResponse_byteAt_zero, okResponse_byteAt_one, if_true,
    okResponse_dataPayload_len op out (by omega), hout]
  cases op with
  | quant | ksgen => cases hdata
  | xstream | bxor | splitx | rot => rfl
  | seedoff => exact absurd rfl hop

theorem quantize_lt {c : Nat} (h : c ≤ 4294967295) : quantize c < 18446744073709551616 := by
  simp only [quantize, Config.half, Config.base]; omega

theorem primaryResult_responseTo {i : Instr} (hw : i.wellFormed = true) :
    primaryResult (responseTo i) = some (boundValue i) := by
  have hlen : i.data.length ≤ 65535 := wellFormed_iff.mp hw
  cases i with
  | quant count =>
    have hread : le64 (quantResponse count) 4 = quantize count.toNat := by
      simpa [quantResponse, okResponse, responseHeader] using
        le64_leBytes (responseHeader Opcode.quant.code .ok) [] (quantize count.toNat) (quantize_lt (by omega))
    exact congrArg (fun v : Nat => some (Value.int v)) hread
  | ksgen bucket =>
    have hread : slice (ksgenResponse bucket) 4 16 = (deriveKeystream bucket.toNat).toList := by
      rw [slice, ksgenResponse, okResponse_drop, List.take_of_length_le (by simp)]
    exact congrArg (fun d => some (Value.bytes d)) hread
  | xstream ks d => exact primaryResult_dataPayload rfl nofun ((xorStream_length d ks).trans_le hlen)
  | bxor key d => exact primaryResult_dataPayload rfl nofun ((blockXor_length d key).trans_le hlen)
  | splitx ka kb d => exact primaryResult_dataPayload rfl nofun ((splitXor_length d ka kb).trans_le hlen)
  | rot k d => exact primaryResult_dataPayload rfl nofun ((rotate_length d _).trans_le hlen)
  | seedoff d =>
    have hle : seedOffset d < 26 := Nat.mod_lt _ (by decide)
    have hread : le32 (seedoffResponse d) 4 = seedOffset d := by
      simpa [seedoffResponse, okResponse, responseHeader] using
        le32_leBytes (responseHeader Opcode.seedoff.code .ok) [] (seedOffset d) (by omega)
    have hsigned : sext 32 (le32 (seedoffResponse d) 4) = seedOffset d := by
      rw [hread, sext, if_pos (by omega)]
    exact congrArg (fun v => some (Value.int v)) hsigned

/-- Under the bindings `env` the line's command is assembled and its response binds `v`. -/
def Binds (env : Bindings) (c : AsmCommand) (v : Value) : Prop :=
  ∃ i, expandLine env c = .ok (some i) ∧ boundValue i = v

/-- The program runs on the empty block, whatever was collected before, and takes the bindings from `env` to `env'`. -/
def RunsTo (ls : List Line) (env env' : Bindings) : Prop :=
  ∀ rs, ∃ rs', runProgram ls ⟨State.reset, env, rs⟩ = .ok ⟨State.reset, env', rs'⟩

theorem RunsTo.nil (env : Bindings) : RunsTo [] env env := fun rs => ⟨rs, rfl⟩

/-- A line that binds adds its name in front, and the rest of the program runs from there (R79). -/
theorem RunsTo.cons {env env' : Bindings} {c : AsmCommand} {v : Value} {x : Name} {ls : List Line}
    (hc : Binds env c v) (hls : RunsTo ls ((x, v) :: env) env') : RunsTo (bindLine x c :: ls) env env' := by
  obtain ⟨i, hexpand, rfl⟩ := hc
  intro rs
  have hw := wellFormed_of_expandLine hexpand
  have hraw (w : Message) : c ≠ .raw w := by rintro rfl; cases hexpand
  have hbind : bindResult (bindLine x c) (respond (encode i)) env = (x, boundValue i) :: env := by
    rw [respond_encode hw]
    cases c with
    | raw w => exact absurd rfl (hraw w)
    | _ => simp only [bindResult, bindLine, primaryResult_responseTo hw]
  obtain ⟨rs', hrest⟩ := hls (rs ++ [respond (encode i)])
  refine ⟨rs', runProgram_cons.mpr ⟨_, (runLine_eq_ok rfl).mpr ⟨encode i, ?_, rfl⟩, ?_⟩⟩
  · exact (assemble_of_ne_raw hraw).mpr ⟨i, hexpand, rfl⟩
  · rw [hbind]; exact hrest

theorem RunsTo.run_start {ls : List Line} {env : Bindings} (h : RunsTo ls [] env) :
    ∃ p, runProgram ls ProgState.start = .ok p ∧ p.env = env := by
  obtain ⟨rs, hrun⟩ := h []
  exact ⟨_, hrun, rfl⟩

theorem lookup_cons_self (x : Name) (v : Value) (env : Bindings) : lookup x ((x, v) :: env) = some v := by
  simp [lookup]

/-- A signed 32-bit field holds every offset the assembler takes (R65, R76). -/
theorem offsetValue_ofInt {k : Int} (hlo : -2147483648 ≤ k) (hhi : k ≤ 2147483647) :
    offsetValue (BitVec.ofInt 32 k) = k := by
  rw [offsetValue_eq_toInt]
  exact BitVec.toInt_ofInt_eq_self (by decide) (by simpa using hlo) (by simp; omega)

section
variable {env : Bindings} {a d : Operand} {x : List Byte}

theorem binds_quant {n : Nat} (hn : n ≤ 4294967295) : Binds env (.quant (.lit (.int n))) (.int (quantize n)) := by
  refine ⟨_, expandLine_quant.mpr ⟨n, intOperand_eq_ok.mpr ⟨rfl, by omega, by omega⟩, rfl⟩, ?_⟩
  rw [boundValue, BitVec.ofInt_natCast, BitVec.toNat_ofNat, Nat.mod_eq_of_lt (by omega)]

theorem binds_ksgen {n : Nat} (ha : resolve env a = .ok (.int n)) (hn : n < 18446744073709551616) :
    Binds env (.ksgen a) (.bytes (deriveKeystream n).toList) := by
  refine ⟨_, expandLine_ksgen.mpr ⟨n, intOperand_eq_ok.mpr ⟨ha, by omega, by omega⟩, rfl⟩, ?_⟩
  rw [boundValue, BitVec.ofInt_natCast, BitVec.toNat_ofNat, Nat.mod_eq_of_lt (by omega)]

theorem binds_xstream {ks : Key} (ha : resolve env a = .ok (.bytes ks.toList)) (hd : resolve env d = .ok (.bytes x))
    (hx : x.length ≤ 65535) : Binds env (.xstream a d) (.bytes (xorStream x ks)) :=
  ⟨_, expandLine_xstream.mpr ⟨ks, keyOperand_eq_ok.mpr ha, x, dataOperand_eq_ok.mpr ⟨hd, hx⟩, rfl⟩, rfl⟩

theorem binds_bxor {key : Key} (ha : resolve env a = .ok (.bytes key.toList)) (hd : resolve env d = .ok (.bytes x))
    (hx : x.length ≤ 65535) : Binds env (.bxor a d) (.bytes (blockXor x key)) :=
  ⟨_, expandLine_bxor.mpr ⟨key, keyOperand_eq_ok.mpr ha, x, dataOperand_eq_ok.mpr ⟨hd, hx⟩, rfl⟩, rfl⟩

theorem binds_splitxF (hd : resolve env d = .ok (.bytes x)) (hx : x.length ≤ 65535) :
    Binds env (.splitxF d) (.bytes (splitXor x Config.keyA Config.keyB)) := by
  have ha : keyByteOperand env (.lit (.int 0x66)) = .ok Config.keyA :=
    keyByteOperand_eq_ok.mpr ⟨0x66, ⟨rfl, by decide, by decide⟩, rfl⟩
  have hb : keyByteOperand env (.lit (.int 0x77)) = .ok Config.keyB :=
    keyByteOperand_eq_ok.mpr ⟨0x77, ⟨rfl, by decide, by decide⟩, rfl⟩
  refine ⟨.splitx Config.keyA Config.keyB x, ?_, rfl⟩
  rw [expandLine_splitxF]
  exact expandLine_splitx.mpr ⟨_, ha, _, hb, x, dataOperand_eq_ok.mpr ⟨hd, hx⟩, rfl⟩

theorem binds_rot {k : Int} (ha : resolve env a = .ok (.int k)) (hlo : -2147483648 ≤ k) (hhi : k ≤ 2147483647)
    (hd : resolve env d = .ok (.bytes x)) (hx : x.length ≤ 65535) :
    Binds env (.rot a d) (.bytes (rotate x k)) := by
  refine ⟨_, expandLine_rot.mpr
    ⟨k, offsetOperand_eq_ok.mpr ⟨ha, hlo, hhi⟩, x, dataOperand_eq_ok.mpr ⟨hd, hx⟩, rfl⟩, ?_⟩
  rw [boundValue, offsetValue_ofInt hlo hhi]

theorem binds_seedoff (hd : resolve env d = .ok (.bytes x)) (hx : x.length ≤ 65535) :
    Binds env (.seedoff d) (.int (seedOffset x)) :=
  ⟨_, expandLine_seedoff.mpr ⟨x, dataOperand_eq_ok.mpr ⟨hd, hx⟩, rfl⟩, rfl⟩

end

/-- The encode lines from `ROT` on, from any bindings in which the offset operand has the value `k` (R180). -/
theorem encodeLines_runsTo {env : Bindings} {off : Operand} {k : Int} (key : Key) {count : Nat} {x : List Byte}
    (hoff : resolve env off = .ok (.int k)) (hlo : -2147483648 ≤ k) (hhi : k ≤ 2147483647) (hcount : count ≤ 4294967295)
    (hx : x.length ≤ 65535) :
    ∃ env', RunsTo (encodeLines off key count x) env env' ∧
      lookup nameOut env' = some (.bytes (xorStream (splitXor (blockXor (rotate x k) key) Config.keyA Config.keyB)
        (deriveKeystream (quantize count)))) := by
  have hrun : RunsTo (encodeLines off key count x) env _ :=
    .cons (binds_rot hoff hlo hhi rfl hx) <|
    .cons (binds_bxor rfl rfl (by simpa using hx)) <|
    .cons (binds_splitxF rfl (by simpa using hx)) <|
    .cons (binds_quant hcount) <|
    .cons (binds_ksgen rfl (quantize_lt hcount)) <|
    .cons (binds_xstream rfl rfl (by simpa using hx)) <|
    .nil _
  exact ⟨_, hrun, lookup_cons_self _ _ _⟩

/-- The degenerate variant's one line (R182). -/
theorem degenerateLines_runsTo {x : List Byte} (hx : x.length ≤ 65535) :
    RunsTo (degenerateLines x) [] [(nameOut, .bytes (splitXor x Config.keyA Config.keyB))] :=
  RunsTo.cons (binds_splitxF rfl hx) (RunsTo.nil _)

end Sys2Proof.Machine
end

section
/-! PROOFS. The statements about the assembler and the host's encode sequences (`30_encoding.md` R76 to R79,
`46_laws_and_host_sequences.md` R180, R182). -/

namespace Sys2Proof.Machine

/-- Settles O55: a line is taken exactly when it has an expansion, and that is when each operand passes its own check. -/
theorem assemblerTakesExactlyTheLegalRanges : Obligations.AssemblerTakesExactlyTheLegalRanges := by
  intro env v w k d
  refine ⟨?_, ?_, ?_, ?_, ?_, ?_, ?_⟩ <;> refine (exists_assemble_iff (by nofun)).trans ?_
  · simp [expandLine_quant, exists_intOperand_lit]
  · simp [expandLine_ksgen, exists_intOperand_lit]
  · simp [expandLine_xstream, exists_keyOperand_lit, exists_dataOperand_lit]
  · simp [expandLine_bxor, exists_keyOperand_lit, exists_dataOperand_lit]
  · simp [expandLine_splitx, exists_keyByteOperand_lit, exists_dataOperand_lit]
  · simp [expandLine_rot, offsetOperand, exists_intOperand_lit, exists_dataOperand_lit]
  · simp [expandLine_seedoff, exists_dataOperand_lit]

/-- Settles O56: the message is the encoding of the line's expansion, which the decoder reads back. -/
theorem assembledMessageCarriesItsCommand : Obligations.AssembledMessageCarriesItsCommand := by
  intro env c m h
  by_cases hraw : ∃ w, c = .raw w
  · obtain ⟨w, rfl⟩ := hraw
    cases h
    exact .inl rfl
  · obtain ⟨i, hexpand, rfl⟩ := (assemble_of_ne_raw (not_exists.mp hraw)).mp h
    have hw := wellFormed_of_expandLine hexpand
    exact .inr ⟨i, hexpand, hw, decode_encode hw⟩

/-- Settles O58: `SEEDOFF` binds the offset, 0 to 25, and the six lines after it bind the composition. -/
theorem encodeOrderComputesThePipeline : Obligations.EncodeOrderComputesThePipeline := by
  intro seedText key count x hseed hcount hx
  have hoff : seedOffset seedText < 26 := Nat.mod_lt _ (by decide)
  obtain ⟨env, hlines, hout⟩ := encodeLines_runsTo (env := [(nameOff, .int (seedOffset seedText))])
    (off := .name nameOff) key rfl (by omega) (by omega) hcount hx
  obtain ⟨p, hrun, rfl⟩ := (RunsTo.cons (binds_seedoff (d := .lit (.bytes seedText)) rfl hseed) hlines).run_start
  exact ⟨p, hrun, hout⟩

/-- Settles O60: the one line binds `split_xor` of its data, which is its own inverse. -/
theorem degenerateVariantTwiceIsTheIdentity : Obligations.DegenerateVariantTwiceIsTheIdentity := by
  intro x hx
  have hy : (splitXor x Config.keyA Config.keyB).length ≤ 65535 := by rwa [splitXor_length]
  obtain ⟨p, hp, hpenv⟩ := (degenerateLines_runsTo hx).run_start
  obtain ⟨q, hq, hqenv⟩ := (degenerateLines_runsTo hy).run_start
  rw [splitXor_splitXor] at hqenv
  exact ⟨p, _, q, hp, by rw [hpenv, lookup_cons_self], hq, by rw [hqenv, lookup_cons_self]⟩

/-- Settles O54: the expansions agree command for command, and -2^31 is outside `UNROT`'s offset range, checked first. -/
theorem pseudoInstructionsAreTheirExpansions : Obligations.PseudoInstructionsAreTheirExpansions := by
  refine ⟨fun env d => ?_, fun env k d hlo hhi => ?_, fun env d => rfl⟩
  · simp only [assemble, expandLine_splitxF]
  · simp only [assemble, expandLine_unrot_lit env d hlo hhi]

end Sys2Proof.Machine
end

section
/-! PROOFS. The quantizer (`40_quantizer.md` R100): the window of counts that share a bucket, from which its bounds follow,
and what the response to `QUANT` carries (`30_encoding.md` R71). -/

namespace Sys2Proof.Machine

/-- Every command completes by appending its response; the rest of the state is as before. -/
theorem exec_eq_next (i : Instr) (s : State) :
    exec i s = .next { cmdq := s.cmdq, rspq := s.rspq ++ [responseTo i] } := by
  rw [exec_eq_complete]
  rfl

theorem quantize_eq (c : Nat) : quantize c = (c + 5) / 10 * 10 := rfl

@[simp] theorem quantize_mod_ten (c : Nat) : quantize c % 10 = 0 := Nat.mul_mod_left _ 10

/-- The counts of a bucket are its window: from 5 below it to 4 above it. -/
theorem quantize_eq_iff {c B : Nat} (hB : B % 10 = 0) : quantize c = B ↔ B ≤ c + 5 ∧ c ≤ B + 4 := by
  rw [quantize_eq]
  omega

/-- A count lies in the window of its own bucket. -/
theorem quantize_bounds (c : Nat) : quantize c ≤ c + 5 ∧ c ≤ quantize c + 4 :=
  (quantize_eq_iff (quantize_mod_ten c)).mp rfl

theorem quantize_of_mod_le {c : Nat} (h : c % 10 ≤ 4) : quantize c = 10 * (c / 10) :=
  (quantize_eq_iff (by omega)).mpr ⟨by omega, by omega⟩

theorem quantize_of_le_mod {c : Nat} (h : 5 ≤ c % 10) : quantize c = 10 * (c / 10 + 1) :=
  (quantize_eq_iff (by omega)).mpr ⟨by omega, by omega⟩

theorem quantize_le_quantize {c b : Nat} (h : c ≤ b) : quantize c ≤ quantize b :=
  Nat.mul_le_mul_right 10 (Nat.div_le_div_right (Nat.add_le_add_right h 5))

/-- A bucket lies in its own window. -/
theorem quantize_quantize (c : Nat) : quantize (quantize c) = quantize c :=
  (quantize_eq_iff (quantize_mod_ten c)).mpr ⟨by omega, by omega⟩

/-- The window as a set; the subtraction stops at 0, which shortens the window of bucket 0. -/
theorem setOf_quantize_eq {B : Nat} (hB : B % 10 = 0) : {c | quantize c = B} = Finset.Icc (B - 5) (B + 4) := by
  ext c
  simp only [Set.mem_ofPred_eq, quantize_eq_iff hB, Finset.coe_Icc, Set.mem_Icc]
  omega

/-- The greatest bucket of a 32-bit count (R103). -/
theorem quantize_le_of_lt {c : Nat} (h : c < 4294967296) : quantize c ≤ 4294967300 := by
  have := quantize_bounds c
  have := quantize_mod_ten c
  omega

/-- The bucket of a 32-bit count exceeds 32 bits for the greatest count alone (R103). -/
theorem quantize_div_two_pow_32 {c : Nat} (h : c < 4294967296) :
    quantize c / 4294967296 = if c = 4294967295 then 1 else 0 := by
  have := quantize_bounds c
  have := quantize_mod_ten c
  split <;> omega

theorem le64_quantResponse (count : Count) : le64 (quantResponse count) 4 = quantize count.toNat := by
  simpa [quantResponse, okResponse, responseHeader] using
    le64_leBytes (responseHeader Opcode.quant.code .ok) [] (quantize count.toNat) (quantize_lt (by omega))

/-- The upper half of the bucket field: 1 for the greatest count, 0 for every other. -/
theorem quantResponse_byteAt_upper (count : Count) (j : Nat) :
    byteAt (quantResponse count) (8 + j) = byteAt (leBytes 4 (if count = 4294967295 then 1 else 0)) j := by
  have hcount : count.toNat = 4294967295 ↔ count = 4294967295 := by
    rw [← BitVec.toNat_inj]; rfl
  have hupper : quantize count.toNat / 4294967296 = if count = 4294967295 then 1 else 0 := by
    simp only [quantize_div_two_pow_32 count.isLt, hcount]
  have hsplit : quantResponse count =
      (responseHeader Opcode.quant.code .ok ++ leBytes 4 (quantize count.toNat)) ++
        leBytes 4 (if count = 4294967295 then 1 else 0) := by
    rw [quantResponse, okResponse, leBytes_eight, hupper, List.append_assoc]
  rw [hsplit]
  exact byteAt_append_right _ _ j

/-- An encode run that succeeds had an offset in range and legal data, so it bound the composition of R180 to the blob. -/
theorem lookup_nameOut_of_encodeLines {off : Operand} {key : Key} {count : Nat} {x : List Byte} {p : ProgState}
    (hcount : count ≤ 4294967295) (hrun : runProgram (encodeLines off key count x) ProgState.start = .ok p) :
    ∃ k, resolve [] off = .ok (.int k) ∧
      lookup nameOut p.env = some (.bytes (xorStream (splitXor (blockXor (rotate x k) key) Config.keyA Config.keyB)
        (deriveKeystream (quantize count)))) := by
  obtain ⟨_, hline, -⟩ := runProgram_cons.mp hrun
  obtain ⟨m, hasm, -⟩ := (runLine_eq_ok rfl).mp hline
  change assemble [] (.rot off (.lit (.bytes x))) = .ok m at hasm
  obtain ⟨_, hexpand, -⟩ := (assemble_of_ne_raw (by nofun)).mp hasm
  obtain ⟨k, hk, y, hy, -⟩ := expandLine_rot.mp hexpand
  obtain ⟨hoff, hlo, hhi⟩ := offsetOperand_eq_ok.mp hk
  obtain ⟨hdata, hlen⟩ := dataOperand_eq_ok.mp hy
  cases hdata
  obtain ⟨env, hlines, hout⟩ := encodeLines_runsTo key hoff hlo hhi hcount hlen
  obtain ⟨q, hq, rfl⟩ := hlines.run_start
  cases hq.symm.trans hrun
  exact ⟨k, hoff, hout⟩

/-- The two buckets of R114 with one seed have one keystream. -/
theorem deriveKeystream_402810_eq_260 : deriveKeystream 402810 = deriveKeystream 260 :=
  congrArg expand (show seed 402810 = seed 260 by decide)

end Sys2Proof.Machine
end

section
/-! PROOFS. The statements about the quantizer and the command `QUANT` (`40_quantizer.md`), with the laws about counts of one
bucket (`46_laws_and_host_sequences.md` R170, R178). -/

namespace Sys2Proof.Machine

/-- Settles O27: `QUANT` appends its response, whose 8-byte field reads back as the bucket. -/
theorem quantAnswersTheBucket : Obligations.QuantAnswersTheBucket := by
  refine fun count s => ⟨quantResponse count, exec_eq_next _ s, ?_, ?_, le64_quantResponse count⟩
  · rw [quantResponse, okResponse_length, leBytes_length]
  · rw [quantResponse, okResponse_take, Opcode.code]

/-- Settles O29: the upper half of the field is 0 or 1, as the bucket exceeds 32 bits for the greatest count alone; the four
rows are evaluated. -/
theorem quantResultFitsTheField : Obligations.QuantResultFitsTheField := by
  have row {count : Count} {r : Message} (h : quantResponse count = r) :
      exec (.quant count) State.reset = .next ⟨[], [r]⟩ := by
    rw [exec_eq_next, ← h]; rfl
  refine ⟨fun count s => ⟨quantResponse count, exec_eq_next _ s, le64_quantResponse count, ?_, ?_, ?_, ?_, ?_, ?_⟩,
    row (by decide), row (by decide), row (by decide), row (by decide)⟩
  · rw [le64_quantResponse]; exact quantize_le_of_lt count.isLt
  · rw [quantResponse_byteAt_upper count 1]; split <;> rfl
  · rw [quantResponse_byteAt_upper count 2]; split <;> rfl
  · rw [quantResponse_byteAt_upper count 3]; split <;> rfl
  · intro h; rw [quantResponse_byteAt_upper count 0, if_pos h]; rfl
  · intro h; rw [quantResponse_byteAt_upper count 0, if_neg h]; rfl

/-- Settles O30: the window is an interval of naturals, cut at 0 for bucket 0. -/
theorem quantizationWindow : Obligations.QuantizationWindow := by
  refine fun B hB => ⟨fun c => quantize_eq_iff hB, ?_⟩
  rw [setOf_quantize_eq hB, Set.ncard_coe_finset, Nat.card_Icc]
  split <;> omega

/-- Settles O34: both counts lie in the window of their bucket, the two buckets have one keystream, and through the count the
blob depends on the keystream alone. -/
theorem collidingCountsAreInterchangeable : Obligations.CollidingCountsAreInterchangeable := by
  intro c c' hlo hhi hlo' hhi'
  have hc : quantize c = 402810 := (quantize_eq_iff rfl).mpr ⟨by omega, by omega⟩
  have hc' : quantize c' = 260 := (quantize_eq_iff rfl).mpr ⟨by omega, by omega⟩
  have hks : deriveKeystream (quantize c) = deriveKeystream (quantize c') := by
    rw [hc, hc', deriveKeystream_402810_eq_260]
  refine ⟨hc, hc', hks, fun off key x p p' hrun hrun' => ?_⟩
  obtain ⟨k, hk, hout⟩ := lookup_nameOut_of_encodeLines (by omega) hrun
  obtain ⟨k', hk', hout'⟩ := lookup_nameOut_of_encodeLines (by omega) hrun'
  cases hk.symm.trans hk'
  rw [hout, hout', hks]

/-- Settles O28, by the window of a bucket: each clause says that some multiple of 10 has the count in its window. -/
theorem quantizeRoundsToTheNearestTen : Obligations.QuantizeRoundsToTheNearestTen := by
  intro c
  obtain ⟨hle, hge⟩ := quantize_bounds c
  refine ⟨fun h => ⟨quantize_of_mod_le h, ?_⟩, fun h => ⟨quantize_of_le_mod h, ?_⟩, quantize_mod_ten c, hge, hle,
    fun _ => quantize_le_quantize, quantize_quantize c, ?_⟩
  · rw [quantize_of_mod_le h]; omega
  · rw [quantize_of_le_mod h]; omega
  · rw [quantize_eq_iff rfl]; omega

end Sys2Proof.Machine
end

section
/-! PROOFS. The keystream generator (`41_keystream.md`): the recurrence fixes its sequence (R112), and the keystream, the
response to `KSGEN` (R113) and the result of `XSTREAM` (R121) are read off that sequence byte by byte. -/

namespace Sys2Proof.Machine

theorem seed_lt (bucket : Nat) : seed bucket < 65536 := Nat.mod_lt _ (by decide)

theorem lcgNext_lt (s : Nat) : lcgNext s < 2147483648 := Nat.mod_lt _ (by decide)

/-- Bits 23:16 of a state (R112). -/
theorem lcgByte_eq (s : Nat) : lcgByte s = BitVec.ofNat 8 (s / 65536 % 256) := rfl

/-- The recurrence of R112 has one solution, the model's. -/
theorem eq_lcgState {sq : Nat → Nat} (hstep : ∀ i, sq (i + 1) = lcgNext (sq i)) (i : Nat) :
    sq i = lcgState (sq 0) i := by
  induction i with
  | zero => rfl
  | succ i ih => rw [hstep, ih, lcgState]

/-- From a state below `2^31` every state is below `2^31`. -/
theorem lcgState_lt {s0 : Nat} (h : s0 < 2147483648) (i : Nat) : lcgState s0 i < 2147483648 := by
  cases i with
  | zero => exact h
  | succ i => exact lcgNext_lt _

/-- Byte `j` of a keystream comes from the state after `j + 1` steps (R112). -/
@[simp] theorem deriveKeystream_getElem (bucket j : Nat) (hj : j < 16) :
    (deriveKeystream bucket)[j] = lcgByte (lcgState (seed bucket) (j + 1)) := by
  simp [deriveKeystream, expand]

/-- The keystream depends on the bucket through the seed (R114). -/
theorem deriveKeystream_congr {a b : Nat} (h : seed a = seed b) : deriveKeystream a = deriveKeystream b :=
  congrArg expand h

/-- Byte `4 + j` of an `OK` response is byte `j` of its payload (R70). -/
theorem okResponse_byteAt (op : Opcode) (p : List Byte) (j : Nat) : byteAt (okResponse op p) (4 + j) = byteAt p j :=
  byteAt_append_right (responseHeader op.code .ok) p j

theorem ksgenResponse_byteAt (bucket : Bucket) {j : Nat} (hj : j < 16) :
    byteAt (ksgenResponse bucket) (4 + j) = lcgByte (lcgState (seed bucket.toNat) (j + 1)) := by
  rw [ksgenResponse, okResponse_byteAt, byteAt_eq_getElem (by simpa using hj), Vector.getElem_toList,
    deriveKeystream_getElem]

/-- Byte `i` of the result of `XSTREAM` (R121). -/
theorem xorStream_byteAt (ks : Key) {d : List Byte} {i : Nat} (hi : i < d.length) :
    byteAt (xorStream d ks) i = d[i] ^^^ keyByte ks i ^^^ positionKey i := by
  rw [byteAt_eq_getElem (by simpa using hi)]
  exact mapBytes_getElem _ _ _ _

/-- Two keystreams give one result byte exactly where their key bytes agree. -/
theorem xorStream_byteAt_eq_iff (ks ks' : Key) {d : List Byte} {i : Nat} (hi : i < d.length) :
    byteAt (xorStream d ks) i = byteAt (xorStream d ks') i ↔ keyByte ks i = keyByte ks' i := by
  rw [xorStream_byteAt ks hi, xorStream_byteAt ks' hi, BitVec.xor_left_inj, BitVec.xor_right_inj]

theorem keyByte_deriveKeystream (bucket i : Nat) :
    keyByte (deriveKeystream bucket) i = lcgByte (lcgState (seed bucket) (i % 16 + 1)) :=
  deriveKeystream_getElem bucket (i % 16) _

/-- Where the keystream of a tested bucket other than 260 meets that of 260 (R177): the pairs of a bucket and a position,
found by running the expansions. -/
theorem filter_lcgByte_eq_260 :
    (List.product ((List.range 31).map (10 * ·)) (List.range 16)).filter (fun (b, p) =>
      b ≠ 260 ∧ lcgByte (lcgState (seed b) (p + 1)) = lcgByte (lcgState (seed 260) (p + 1))) =
    [(30, 14), (160, 12), (210, 0), (290, 8)] := by
  decide

end Sys2Proof.Machine
end

section
/-! PROOFS. The statements about the keystream generator and the command `KSGEN` (`41_keystream.md`), with what the source
claims of wrong counts (`46_laws_and_host_sequences.md` R177). -/

namespace Sys2Proof.Machine

/-- Settles O31: the given sequence is the model's, and the response carries the sixteen bytes of it behind its header. -/
theorem ksgenAnswersTheKeystream : Obligations.KsgenAnswersTheKeystream := by
  rintro bucket s _ _ _ _ sq rfl rfl rfl rfl hseed hstep
  refine ⟨ksgenResponse bucket, exec_eq_next _ s, ?_, ?_, fun j hj => ?_⟩
  · rw [ksgenResponse, okResponse_length, Vector.length_toList]
  · rw [ksgenResponse, okResponse_take, Opcode.code]
  · have hstate : sq (j + 1) = lcgState (seed bucket.toNat) (j + 1) := by
      rw [eq_lcgState hstep, hseed]; rfl
    rw [ksgenResponse_byteAt bucket hj, hstate, lcgByte_eq, BitVec.toNat_ofNat]
    exact Nat.mod_mod _ _

/-- Settles O32: the hashes and the seed are remainders, every state is below `2^31`, and the keystream is read off the one
sequence that follows the recurrence. -/
theorem keystreamFollowsHashesSeedAndRecurrence : Obligations.KeystreamFollowsHashesSeedAndRecurrence := by
  intro bucket
  have below {n m : Nat} (hm : 0 < m) : n % m ≤ m - 1 := Nat.le_sub_one_of_lt (Nat.mod_lt n hm)
  refine ⟨rfl, below (by decide), rfl, below (by decide), rfl, below (by decide), rfl, Nat.le_of_lt_succ (seed_lt bucket),
    fun sq hseed hstep => ?_⟩
  have hstate (i : Nat) : sq i = lcgState (seed bucket) i := hseed ▸ eq_lcgState hstep i
  refine ⟨fun i => ?_, ?_⟩
  · have hlt : sq i < 2147483648 := hstate i ▸ lcgState_lt ((seed_lt bucket).trans (by decide)) i
    omega
  · apply List.ext_getElem
    · simp
    · intro j hj _
      simp [hstate, lcgByte_eq]

/-- Settles O33: the keystream is a function of the seed, and there are 65536 seeds. -/
theorem keystreamDependsOnSeedOnly : Obligations.KeystreamDependsOnSeedOnly := by
  refine ⟨fun a b s h => ?_, ?_, by decide, by decide, by decide, by decide, by decide⟩
  · have hresponse : ksgenResponse a = ksgenResponse b := by
      rw [ksgenResponse, deriveKeystream_congr h, ksgenResponse]
    rw [exec_eq_next, exec_eq_next, responseTo, responseTo, hresponse]
  · have hrange : Set.range deriveKeystream ⊆ expand '' Set.Iio 65536 := by
      rintro _ ⟨bucket, rfl⟩
      exact ⟨seed bucket, seed_lt bucket, rfl⟩
    calc (Set.range deriveKeystream).ncard ≤ (expand '' Set.Iio 65536).ncard :=
          Set.ncard_le_ncard hrange ((Set.finite_Iio _).image _)
      _ ≤ (Set.Iio 65536).ncard := Set.ncard_image_le (Set.finite_Iio _)
      _ = 65536 := by rw [← Finset.coe_Iio, Set.ncard_coe_finset, Nat.card_Iio]

/-- Settles O35: a result byte is the data byte under two XORs, so it agrees where the key bytes agree, and the keystreams of
the tested buckets are compared position by position. -/
theorem wrongTestedBucketsDiffer : Obligations.WrongTestedBucketsDiffer := by
  intro j d i hj hne hi
  rw [xorStream_byteAt_eq_iff _ _ hi, keyByte_deriveKeystream, keyByte_deriveKeystream]
  have htested : 10 * j ∈ (List.range 31).map (10 * ·) := List.mem_map_of_mem (List.mem_range.mpr (Nat.lt_succ_of_le hj))
  have hposition : i % 16 ∈ List.range 16 := List.mem_range.mpr (Nat.mod_lt i (by decide))
  have hother : 10 * j ≠ 260 := by omega
  rw [← filter_lcgByte_eq_260, List.mem_filter, and_iff_right (List.pair_mem_product.mpr ⟨htested, hposition⟩)]
  simp [hother]

end Sys2Proof.Machine
end

section
/-! PROOFS. The XOR with a mask, which each of the three XOR layers is (`46_laws_and_host_sequences.md` R176), and what the
block answers to a data command (`30_encoding.md` R71). -/

namespace Sys2Proof.Machine

/-- The XOR with a mask that depends on index and length only (R176); `xorStream_eq_xorMask`, `blockXor_eq_xorMask` and
`splitXor_eq_xorMask` tie it to the model. -/
def xorMask (mask : Nat → Nat → Byte) (d : List Byte) : List Byte := mapBytes (fun i b => b ^^^ mask i d.length) d

@[simp] theorem xorMask_length (mask : Nat → Nat → Byte) (d : List Byte) : (xorMask mask d).length = d.length :=
  mapBytes_length _ d

theorem xorMask_byteAt (mask : Nat → Nat → Byte) {d : List Byte} {i : Nat} (hi : i < d.length) :
    byteAt (xorMask mask d) i = byteAt d i ^^^ mask i d.length := by
  rw [byteAt_eq_getElem (by simpa using hi), byteAt_eq_getElem hi]
  exact mapBytes_getElem _ _ _ _

theorem xorMask_zero (d : List Byte) : xorMask (fun _ _ => 0) d = d := by
  simp only [xorMask, BitVec.ofNat_eq_ofNat, BitVec.xor_zero]
  exact mapBytes_id d

/-- Two masks in a row are one: the first keeps the length, so the second meets the same index and length. -/
theorem xorMask_xorMask (m m' : Nat → Nat → Byte) (d : List Byte) :
    xorMask m (xorMask m' d) = xorMask (fun i n => m' i n ^^^ m i n) d := by
  rw [xorMask, xorMask_length, xorMask, mapBytes_mapBytes]
  simp only [BitVec.xor_assoc]
  rfl

theorem xorMask_comm (m m' : Nat → Nat → Byte) (d : List Byte) :
    xorMask m (xorMask m' d) = xorMask m' (xorMask m d) := by
  simp only [xorMask_xorMask, BitVec.xor_comm]

theorem xorMask_self (m : Nat → Nat → Byte) (d : List Byte) : xorMask m (xorMask m d) = d := by
  simp only [xorMask_xorMask, BitVec.xor_self]
  exact xorMask_zero d

/-- The mask of `XSTREAM`: the keystream byte and the position key (R121). -/
theorem xorStream_eq_xorMask (d : List Byte) (ks : Key) :
    xorStream d ks = xorMask (fun i _ => keyByte ks i ^^^ positionKey i) d := by
  simp only [xorStream, xorMask, BitVec.xor_assoc]

/-- The mask of `BXOR`: the key byte (R130). -/
theorem blockXor_eq_xorMask (d : List Byte) (key : Key) : blockXor d key = xorMask (fun i _ => keyByte key i) d := rfl

/-- The mask of `SPLITX`: the key of the chunk the index lies in (R140). -/
theorem splitXor_eq_xorMask (d : List Byte) (ka kb : Byte) :
    splitXor d ka kb = xorMask (fun i n => chunkKey ka kb n i) d := rfl

theorem XorLayer.exists_xorMask {f : List Byte → List Byte} (hf : XorLayer f) : ∃ mask, f = xorMask mask := by
  rcases hf with ⟨ks, rfl⟩ | ⟨key, rfl⟩ | ⟨ka, kb, rfl⟩
  · exact ⟨_, funext fun d => xorStream_eq_xorMask d ks⟩
  · exact ⟨_, funext fun d => blockXor_eq_xorMask d key⟩
  · exact ⟨_, funext fun d => splitXor_eq_xorMask d ka kb⟩

theorem xorStream_xorStream (d : List Byte) (ks : Key) : xorStream (xorStream d ks) ks = d := by
  rw [xorStream_eq_xorMask, xorStream_eq_xorMask]
  exact xorMask_self _ d

/-- A command whose payload is `LEN` and the bytes `out` completes with `out` behind an eight-byte head (R70, R71). -/
theorem exec_dataPayload {i : Instr} {out : List Byte} (hpayload : okPayload i = dataPayload out) (s : State) :
    ∃ r, exec i s = .next { cmdq := s.cmdq, rspq := s.rspq ++ [r] } ∧ r.length = 8 + out.length ∧
      r.take 4 = [i.opcode.code, 0, 0, 0] ∧ (out.length ≤ 65535 → le32 r 4 = out.length) ∧
      ∀ j, byteAt r (8 + j) = byteAt out j := by
  have hresponse : responseTo i = okResponse i.opcode (dataPayload out) := by rw [responseTo_eq_okResponse, hpayload]
  refine ⟨_, hresponse ▸ exec_eq_next i s, ?_, okResponse_take _ _, fun h => okResponse_dataPayload_len _ _ (by omega),
    okResponse_dataPayload_byteAt _ _⟩
  rw [okResponse_length, dataPayload_length]
  omega

/-- The step on an encoded data command answers `OK` with exactly the result of the command. -/
theorem step_encode_dataPayload {i : Instr} {out e : List Byte} {n : Nat} {rest rs : List Message}
    (hw : i.wellFormed = true) (hpayload : okPayload i = dataPayload out) (hn : out.length = n) :
    step ⟨encode i :: rest, rs⟩ = .next ⟨rest, rs ++ [[i.opcode.code, 0, 0, 0] ++ leBytes 4 n ++ e]⟩ ↔ e = out := by
  rw [step_cons, respond_encode hw, responseTo_eq_okResponse, hpayload]
  simp [okResponse, responseHeader, Status.code, dataPayload, hn, eq_comm (a := e)]

end Sys2Proof.Machine
end

section
/-! PROOFS. The statements about the positional stream cipher and the command `XSTREAM` (`42_stream_xor.md`), with the laws of
the XOR layers (`46_laws_and_host_sequences.md` R171, R176). -/

namespace Sys2Proof.Machine

/-- Settles O36: the response carries the result of `xor_stream`, as long as the data, byte for byte as R121 gives it. -/
theorem xstreamAnswersEachByte : Obligations.XstreamAnswersEachByte := by
  intro ks d s
  obtain ⟨r, hexec, hlength, hhead, hlen, hbyte⟩ := exec_dataPayload (i := .xstream ks d) rfl s
  rw [xorStream_length] at hlength hlen
  exact ⟨r, hexec, hlength, hhead, hlen, fun i hi => (hbyte i).trans (xorStream_byteAt ks hi)⟩

/-- Settles O38: the data `e` of the first answer is the masked `d`, of the same length, and the mask applied again cancels. -/
theorem xstreamTwiceIsTheIdentity : Obligations.XstreamTwiceIsTheIdentity := by
  refine ⟨fun ks d => xorStream_xorStream d ks, fun ks d e rest rs hd hfirst => ?_⟩
  have he : e = xorStream d ks :=
    (step_encode_dataPayload (i := .xstream ks d) (wellFormed_iff.mpr hd) rfl (xorStream_length d ks)).mp hfirst
  have hlen : e.length = d.length := by rw [he, xorStream_length]
  have hback : d = xorStream e ks := by rw [he, xorStream_xorStream]
  exact (step_encode_dataPayload (i := .xstream ks e) (wellFormed_iff.mpr (hlen.trans_le hd)) rfl
    ((xorStream_length e ks).trans hlen)).mpr hback

/-- Settles O44: each layer is the XOR with a mask, and masks commute. The rotation by 1 takes the letter 0x41 to 0x42, and
`SPLITX` under the key 1 takes it to 0x40, which is no letter and stays. -/
theorem xorLayersCommute : Obligations.XorLayersCommute := by
  refine ⟨fun f hf => ?_, fun f g hf hg d => ?_, fun d => splitXor d 1 1, .inr (.inr ⟨1, 1, rfl⟩), [0x41], 1, by decide⟩
  · obtain ⟨mask, rfl⟩ := hf.exists_xorMask
    exact ⟨mask, fun d => ⟨xorMask_length mask d, fun i hi => xorMask_byteAt mask hi⟩⟩
  · obtain ⟨m, rfl⟩ := hf.exists_xorMask
    obtain ⟨m', rfl⟩ := hg.exists_xorMask
    exact xorMask_comm m m' d

end Sys2Proof.Machine
end

section
/-! PROOFS. The block XOR byte by byte and applied twice (`43_block_xor.md` R130, `46_laws_and_host_sequences.md` R172), and
how a law about two transforms carries over to the messages of two data commands. -/

namespace Sys2Proof.Machine

/-- Byte `i` of the result of `BXOR` (R130). -/
theorem blockXor_byteAt (key : Key) {d : List Byte} {i : Nat} (hi : i < d.length) :
    byteAt (blockXor d key) i = d[i] ^^^ keyByte key i := by
  rw [blockXor_eq_xorMask, xorMask_byteAt _ hi, byteAt_eq_getElem hi]

theorem blockXor_blockXor (d : List Byte) (key : Key) : blockXor (blockXor d key) key = d := by
  rw [blockXor_eq_xorMask, blockXor_eq_xorMask]
  exact xorMask_self _ d

/-- Where the transform `g` of the command `j` undoes the transform `f` of the command `i`, the step on `j` gives back the
data of `i` from what the step on `i` answered. -/
theorem step_encode_undo {i j : Instr} {f g : List Byte → List Byte} {d e : List Byte} {rest rs : List Message}
    (hi : i.data = d) (hj : j.data = e) (hf : okPayload i = dataPayload (f d)) (hg : okPayload j = dataPayload (g e))
    (hlength : (f d).length = d.length) (hundo : g (f d) = d) (hd : d.length ≤ 65535)
    (hfirst : step ⟨encode i :: rest, rs⟩ =
      .next ⟨rest, rs ++ [[i.opcode.code, 0, 0, 0] ++ leBytes 4 d.length ++ e]⟩) :
    step ⟨encode j :: rest, rs⟩ = .next ⟨rest, rs ++ [[j.opcode.code, 0, 0, 0] ++ leBytes 4 d.length ++ d]⟩ := by
  have hwi : i.wellFormed = true := wellFormed_iff.mpr (by rwa [hi])
  obtain rfl : e = f d := (step_encode_dataPayload hwi hf hlength).mp hfirst
  have hwj : j.wellFormed = true := wellFormed_iff.mpr (by rwa [hj, hlength])
  rw [hundo] at hg
  exact (step_encode_dataPayload hwj hg rfl).mpr rfl

end Sys2Proof.Machine
end

section
/-! PROOFS. The statements about the block cipher and the command `BXOR` (`43_block_xor.md`), with its involution law
(`46_laws_and_host_sequences.md` R172). -/

namespace Sys2Proof.Machine

/-- Settles O40: the XOR with the cycled key cancels itself, on sequences and so on the messages that carry them. -/
theorem bxorTwiceIsTheIdentity : Obligations.BxorTwiceIsTheIdentity := by
  refine ⟨fun key d => blockXor_blockXor d key, fun key d e rest rs hd hfirst => ?_⟩
  exact step_encode_undo (i := .bxor key d) (j := .bxor key e) (f := (blockXor · key)) (g := (blockXor · key))
    rfl rfl rfl rfl (blockXor_length d key) (blockXor_blockXor d key) hd hfirst

/-- Settles O39: the response carries the result of `block_xor`, as long as the data, byte for byte as R130 gives it. -/
theorem bxorAnswersEachByte : Obligations.BxorAnswersEachByte := by
  intro key d s
  obtain ⟨r, hexec, hlength, hhead, hlen, hbyte⟩ := exec_dataPayload (i := .bxor key d) rfl s
  rw [blockXor_length] at hlength hlen
  exact ⟨r, hexec, hlength, hhead, hlen, fun i hi => (hbyte i).trans (blockXor_byteAt key hi)⟩

end Sys2Proof.Machine
end

section
/-! PROOFS. The chunk splitter/XOR as two plain XORs side by side (`44_chunk_xor.md` R140), one for each chunk. -/

namespace Sys2Proof.Machine

/-- A map that does not look at the index is the plain map. -/
theorem mapBytes_const (f : Byte → Byte) (d : List Byte) : mapBytes (fun _ b => f b) d = d.map f := by
  apply List.ext_getElem <;> simp

/-- The second part of a sequence is mapped at indices moved by the length of the first. -/
theorem mapBytes_append (f : Nat → Byte → Byte) (a b : List Byte) :
    mapBytes f (a ++ b) = mapBytes f a ++ mapBytes (fun i => f (i + a.length)) b :=
  List.mapIdx_append

theorem chunkKey_of_lt (ka kb : Byte) {n i : Nat} (h : i < n / 2) : chunkKey ka kb n i = ka := if_pos h

theorem chunkKey_of_le (ka kb : Byte) {n i : Nat} (h : n / 2 ≤ i) : chunkKey ka kb n i = kb := if_neg h.not_gt

@[simp] theorem chunkKey_self (k : Byte) (n i : Nat) : chunkKey k k n i = k := ite_self k

/-- Byte `i` of the result of `SPLITX` (R140). -/
theorem splitXor_byteAt (ka kb : Byte) {d : List Byte} {i : Nat} (hi : i < d.length) :
    byteAt (splitXor d ka kb) i = d[i] ^^^ chunkKey ka kb d.length i := by
  rw [splitXor_eq_xorMask, xorMask_byteAt _ hi, byteAt_eq_getElem hi]

/-- Cut where R140 cuts, the parts are the two chunks. -/
theorem splitXor_append (ka kb : Byte) {a b : List Byte} (hcut : (a ++ b).length / 2 = a.length) :
    splitXor (a ++ b) ka kb = a.map (· ^^^ ka) ++ b.map (· ^^^ kb) := by
  have hA : mapBytes (fun i c => c ^^^ chunkKey ka kb (a ++ b).length i) a = a.map (· ^^^ ka) := by
    rw [← mapBytes_const]
    exact mapBytes_congr fun i hi => by rw [chunkKey_of_lt ka kb (by omega)]
  have hB : mapBytes (fun i c => c ^^^ chunkKey ka kb (a ++ b).length (i + a.length)) b = b.map (· ^^^ kb) := by
    rw [← mapBytes_const]
    exact mapBytes_congr fun i _ => by rw [chunkKey_of_le ka kb (by omega)]
  rw [splitXor, mapBytes_append, hA, hB]

/-- Two equal keys act as one key over all the data. -/
theorem splitXor_self_key (k : Byte) (d : List Byte) : splitXor d k k = d.map (· ^^^ k) := by
  simp only [splitXor, chunkKey_self]
  exact mapBytes_const _ d

theorem splitXor_zero_keys (d : List Byte) : splitXor d 0 0 = d := by
  simp [splitXor_self_key]

/-- The response to no data is the header and a zero `LEN` (R142). -/
theorem splitxResponse_nil (ka kb : Byte) : splitxResponse ka kb [] = [0x05, 0, 0, 0, 0, 0, 0, 0] := by
  rw [splitxResponse, splitXor, mapBytes_nil]
  rfl

end Sys2Proof.Machine
end

section
/-! PROOFS. The statements about the chunk splitter/XOR and the command `SPLITX` (`44_chunk_xor.md`), with its involution law
(`46_laws_and_host_sequences.md` R173). -/

namespace Sys2Proof.Machine

/-- Settles O42: one byte, as the two halves of longer data, is a case of the cut after `n div 2` bytes, and the zero keys are
a case of equal keys. -/
theorem splitxCornerCases : Obligations.SplitxCornerCases := by
  refine ⟨fun ka kb s => ?_, fun ka kb b => ?_, fun ka kb a b hlen => ?_,
    splitXor_self_key, splitXor_zero_keys⟩
  · rw [← splitxResponse_nil ka kb]
    exact exec_eq_next _ s
  · exact splitXor_append ka kb (a := []) (b := [b]) (by simp)
  · exact splitXor_append ka kb (by rw [List.length_append]; omega)

/-- Settles O43: the second pass cuts at the same place, since the length is kept, and so cancels the first, on sequences and
on the messages that carry them. -/
theorem splitxTwiceIsTheIdentity : Obligations.SplitxTwiceIsTheIdentity := by
  refine ⟨fun ka kb d => splitXor_splitXor d ka kb, fun ka kb d e rest rs hd hfirst => ?_⟩
  exact step_encode_undo (i := .splitx ka kb d) (j := .splitx ka kb e) (f := (splitXor · ka kb)) (g := (splitXor · ka kb))
    rfl rfl rfl rfl (splitXor_length d ka kb) (splitXor_splitXor d ka kb) hd hfirst

/-- Settles O41: the response carries the result of `split_xor`, as long as the data, whose byte `i` is keyed by the chunk
`i` lies in. -/
theorem splitxAnswersEachByte : Obligations.SplitxAnswersEachByte := by
  intro ka kb d s
  obtain ⟨r, hexec, hlength, hhead, hlen, hbyte⟩ := exec_dataPayload (i := .splitx ka kb d) rfl s
  rw [splitXor_length] at hlength hlen
  refine ⟨r, hexec, hlength, hhead, hlen, fun i hi => ⟨fun hA => ?_, fun hB => ?_⟩⟩
  · rw [hbyte, splitXor_byteAt ka kb hi, chunkKey_of_lt ka kb hA]
  · rw [hbyte, splitXor_byteAt ka kb hi, chunkKey_of_le ka kb hB]

end Sys2Proof.Machine
end

section
/-! PROOFS. The rotation of one byte and of a sequence (`45_rotation.md` R150 to R155): the two alphabets are 26 bytes each, a
letter stays in its alphabet, and the offset acts on it modulo 26. -/

namespace Sys2Proof.Machine

/-- The byte is one of the 26 letters of the alphabet that begins at `first` (R150); `letterFrom_upper_iff` and
`letterFrom_lower_iff` tie it to the model's two classes. -/
def LetterFrom (first : Nat) (c : Byte) : Prop :=
  (first = 0x41 ∨ first = 0x61) ∧ first ≤ c.toNat ∧ c.toNat < first + 26

theorem isUpper_iff {c : Byte} : isUpper c = true ↔ 0x41 ≤ c.toNat ∧ c.toNat ≤ 0x5A := by
  simp [isUpper]

theorem isLower_iff {c : Byte} : isLower c = true ↔ 0x61 ≤ c.toNat ∧ c.toNat ≤ 0x7A := by
  simp [isLower]

theorem letterFrom_upper_iff {c : Byte} : LetterFrom 0x41 c ↔ isUpper c = true := by
  rw [isUpper_iff, LetterFrom]; omega

theorem letterFrom_lower_iff {c : Byte} : LetterFrom 0x61 c ↔ isLower c = true := by
  rw [isLower_iff, LetterFrom]; omega

theorem rotChar_of_letterFrom {first : Nat} {c : Byte} (hc : LetterFrom first c) (k : Int) :
    rotChar c k = rotLetter first c k := by
  obtain ⟨rfl | rfl, hlo, hhi⟩ := hc
  · rw [rotChar, if_pos (isUpper_iff.mpr (by omega))]
  · rw [rotChar, if_neg (mt isUpper_iff.mp (by omega)), if_pos (isLower_iff.mpr (by omega))]

/-- A byte of neither class is unchanged (R151). -/
theorem rotChar_of_other {c : Byte} (hc : c.toNat < 0x41 ∨ (0x5A < c.toNat ∧ c.toNat < 0x61) ∨ 0x7A < c.toNat) (k : Int) :
    rotChar c k = c := by
  rw [rotChar, if_neg (mt isUpper_iff.mp (by omega)), if_neg (mt isLower_iff.mp (by omega))]

/-- All a rotation can meet: a letter of one of the two alphabets, or a byte it leaves as it is. -/
theorem letterFrom_or_rotChar_eq_self (c : Byte) : (∃ first, LetterFrom first c) ∨ ∀ k, rotChar c k = c := by
  by_cases hupper : isUpper c = true
  · exact .inl ⟨0x41, letterFrom_upper_iff.mpr hupper⟩
  by_cases hlower : isLower c = true
  · exact .inl ⟨0x61, letterFrom_lower_iff.mpr hlower⟩
  rw [isUpper_iff] at hupper
  rw [isLower_iff] at hlower
  exact .inr (rotChar_of_other (by omega))

/-- The rotated letter, as R151 writes it. -/
theorem rotChar_toNat {first : Nat} {c : Byte} (hc : LetterFrom first c) (k : Int) :
    ((rotChar c k).toNat : Int) = first + ((c.toNat : Int) - first + k) % 26 := by
  have ⟨hfirst, _, _⟩ := hc
  have hmod : first + (((c.toNat : Int) - first + k) % 26).toNat < 256 := by omega
  rw [rotChar_of_letterFrom hc, rotLetter, BitVec.toNat_ofNat]
  simp only [Config.alpha]
  omega

/-- The class never changes (R151). -/
theorem letterFrom_rotChar {first : Nat} {c : Byte} (hc : LetterFrom first c) (k : Int) :
    LetterFrom first (rotChar c k) := by
  have hrot := rotChar_toNat hc k
  have ⟨hfirst, _, _⟩ := hc
  exact ⟨hfirst, by omega, by omega⟩

theorem rotChar_congr {j k : Int} (h : j % 26 = k % 26) (c : Byte) : rotChar c j = rotChar c k := by
  rcases letterFrom_or_rotChar_eq_self c with ⟨first, hc⟩ | hself
  · have hj := rotChar_toNat hc j
    have hk := rotChar_toNat hc k
    exact BitVec.eq_of_toNat_eq (by omega)
  · rw [hself, hself]

theorem rotChar_zero (c : Byte) : rotChar c 0 = c := by
  rcases letterFrom_or_rotChar_eq_self c with ⟨first, hc⟩ | hself
  · have hrot := rotChar_toNat hc 0
    obtain ⟨-, hlo, hhi⟩ := hc
    exact BitVec.eq_of_toNat_eq (by omega)
  · exact hself 0

/-- Two rotations in a row add their offsets: the second meets a letter of the same alphabet. -/
theorem rotChar_rotChar (c : Byte) (j k : Int) : rotChar (rotChar c j) k = rotChar c (j + k) := by
  rcases letterFrom_or_rotChar_eq_self c with ⟨first, hc⟩ | hself
  · have hj := rotChar_toNat hc j
    have hjk := rotChar_toNat (letterFrom_rotChar hc j) k
    have hsum := rotChar_toNat hc (j + k)
    exact BitVec.eq_of_toNat_eq (by omega)
  · rw [hself, hself, hself]

/-- Byte `i` of the result of `ROT` (R154). -/
theorem rotate_byteAt (k : Int) {d : List Byte} {i : Nat} (hi : i < d.length) :
    byteAt (rotate d k) i = rotChar d[i] k := by
  rw [byteAt_eq_getElem (by simpa using hi)]
  exact mapBytes_getElem _ _ _ _

theorem rotate_congr {j k : Int} (h : j % 26 = k % 26) (d : List Byte) : rotate d j = rotate d k := by
  simp only [rotate, rotChar_congr h]

theorem rotate_rotate (d : List Byte) (j k : Int) : rotate (rotate d j) k = rotate d (j + k) := by
  rw [rotate, rotate, mapBytes_mapBytes]
  simp only [rotChar_rotChar]
  rfl

theorem rotate_zero (d : List Byte) : rotate d 0 = d := by
  simp only [rotate, rotChar_zero]
  exact mapBytes_id d

/-- The rotations that change nothing; the letter 0x41 tells the others from them. -/
theorem rotate_eq_self_iff {k : Int} : (∀ d, rotate d k = d) ↔ k % 26 = 0 := by
  refine ⟨fun hself => ?_, fun hk d => (rotate_congr hk d).trans (rotate_zero d)⟩
  have hletter : rotChar 0x41 k = 0x41 := (rotate_byteAt k (d := [0x41]) Nat.one_pos).symm.trans (by rw [hself]; rfl)
  have hrot := rotChar_toNat (letterFrom_upper_iff.mpr (by decide : isUpper 0x41 = true)) k
  rw [hletter] at hrot
  have hA : (0x41 : Byte).toNat = 0x41 := rfl
  omega

/-- Two offsets that cancel modulo 26 are inverse to each other. -/
theorem rotate_rotate_cancel {j k : Int} (h : (j + k) % 26 = 0) (d : List Byte) : rotate (rotate d j) k = d := by
  rw [rotate_rotate, rotate_eq_self_iff.mpr h]

end Sys2Proof.Machine
end

section
/-! PROOFS. The seed offset (`45_rotation.md` R156, R159) as a sum of a list, and the eight bytes `SEEDOFF` answers. -/

namespace Sys2Proof.Machine

theorem byteSum_eq_sum (d : List Byte) : byteSum d = (d.map BitVec.toNat).sum := by
  induction d with
  | nil => rfl
  | cons b bs ih => rw [byteSum, ih, List.map_cons, List.sum_cons]

theorem seedOffset_eq (d : List Byte) : seedOffset d = (d.map BitVec.toNat).sum % 26 := by
  rw [seedOffset, byteSum_eq_sum]

theorem seedOffset_le (d : List Byte) : seedOffset d ≤ 25 := Nat.le_of_lt_succ (Nat.mod_lt _ (by decide))

theorem seedOffset_perm {d e : List Byte} (h : d.Perm e) : seedOffset d = seedOffset e := by
  rw [seedOffset_eq, seedOffset_eq, (h.map BitVec.toNat).sum_eq]

/-- The offset fills only the first byte of its field (R71, R156). -/
theorem seedoffResponse_eq (d : List Byte) :
    seedoffResponse d = [0x07, 0, 0, 0, BitVec.ofNat 8 (seedOffset d), 0, 0, 0] := by
  have hle := seedOffset_le d
  rw [seedoffResponse, leBytes_four, Nat.mod_eq_of_lt (by omega : seedOffset d < 256),
    Nat.div_eq_of_lt (by omega : seedOffset d < 256), Nat.div_eq_of_lt (by omega : seedOffset d < 65536),
    Nat.div_eq_of_lt (by omega : seedOffset d < 16777216)]
  rfl

theorem le32_seedoffResponse (d : List Byte) : le32 (seedoffResponse d) 4 = seedOffset d := by
  have hle := seedOffset_le d
  rw [seedoffResponse]
  simpa [okResponse, responseHeader] using
    le32_leBytes (responseHeader Opcode.seedoff.code .ok) [] (seedOffset d) (by omega)

end Sys2Proof.Machine
end

section
/-! PROOFS. The statements about the rotation cipher and the commands `ROT` and `SEEDOFF` (`45_rotation.md`), with the inverse
law of the rotation (`46_laws_and_host_sequences.md` R174). -/

namespace Sys2Proof.Machine

/-- Settles O46: the response carries the result of `rotate`, as long as the data, whose byte `i` is moved along the alphabet
it lies in. -/
theorem rotAnswersEachByte : Obligations.RotAnswersEachByte := by
  intro k d s
  obtain ⟨r, hexec, hlength, hhead, hlen, hbyte⟩ := exec_dataPayload (i := .rot k d) rfl s
  rw [rotate_length] at hlength hlen
  have hrot {i : Nat} (hi : i < d.length) : byteAt r (8 + i) = rotChar d[i] k.toInt := by
    rw [hbyte, rotate_byteAt _ hi, offsetValue_eq_toInt]
  refine ⟨r, hexec, hlength, hhead, hlen, fun i hi => ⟨fun hupper => ?_, fun hlower => ?_, fun hother => ?_⟩⟩
  · rw [hrot hi]
    exact rotChar_toNat (letterFrom_upper_iff.mpr (isUpper_iff.mpr hupper)) _
  · rw [hrot hi]
    exact rotChar_toNat (letterFrom_lower_iff.mpr (isLower_iff.mpr hlower)) _
  · rw [hrot hi, rotChar_of_other hother]

/-- Settles O49: each of the three offsets is compared with the other modulo 26. -/
theorem rotationDependsOnOffsetModAlphabet : Obligations.RotationDependsOnOffsetModAlphabet := fun d k =>
  ⟨fun j => rotate_congr (by omega) d, fun hk => rotate_eq_self_iff.mpr hk d, rotate_congr (by omega) d⟩

/-- The offset `ROT` undoes `ROT k` with: the negated one, and 24 where the field cannot hold the negation (R174). -/
theorem offsetValue_add_mod_of_inverse {k k' : Offset} (h : (k ≠ 0x80000000 ∧ k' = -k) ∨ (k = 0x80000000 ∧ k' = 24)) :
    (offsetValue k + offsetValue k') % 26 = 0 := by
  rcases h with ⟨hmin, rfl⟩ | ⟨rfl, rfl⟩
  · rw [offsetValue_eq_toInt, offsetValue_eq_toInt, BitVec.toInt_neg_of_ne_intMin hmin]
    omega
  · decide

/-- Settles O50: two rotations add their offsets, and the sum is 0 modulo 26; for the same offset twice the sum is `2 * k`. -/
theorem rotationIsInvertedByTheNegatedOffset : Obligations.RotationIsInvertedByTheNegatedOffset := by
  refine ⟨fun k x => rotate_rotate_cancel (by omega) x, fun k k' d e rest rs hd hinverse hfirst => ?_, fun k => ?_⟩
  · exact step_encode_undo (i := .rot k d) (j := .rot k' e) (f := (rotate · (offsetValue k)))
      (g := (rotate · (offsetValue k'))) rfl rfl rfl rfl (rotate_length d _)
      (rotate_rotate_cancel (offsetValue_add_mod_of_inverse hinverse) d) hd hfirst
  · simp only [rotate_rotate, rotate_eq_self_iff]
    omega

/-- Settles O51: the response is the header and the offset's field, which is written from the sum of the bytes. -/
theorem seedoffAnswersTheByteSum : Obligations.SeedoffAnswersTheByteSum := by
  refine fun d s => ⟨seedoffResponse d, exec_eq_next _ s, ?_⟩
  rw [le32_seedoffResponse, seedoffResponse_eq]
  exact ⟨rfl, rfl, seedOffset_eq d, seedOffset_le d, rfl, rfl, rfl⟩

/-- Settles O52: the response is written from the offset, and a sum does not see the order. -/
theorem seedOffsetIgnoresTheOrder : Obligations.SeedOffsetIgnoresTheOrder := by
  intro d e s hperm
  rw [exec_eq_next, exec_eq_next, responseTo, responseTo, seedoffResponse, seedoffResponse, seedOffset_perm hperm]

/-- Settles O47, by the class of the byte. -/
theorem rotCharKeepsTheClass : Obligations.RotCharKeepsTheClass := by
  refine fun c k => ⟨fun hupper => ?_, fun hlower => ?_, fun hother => rotChar_of_other hother k⟩
  · have hc : LetterFrom 0x41 c := letterFrom_upper_iff.mpr (isUpper_iff.mpr hupper)
    exact ⟨rotChar_toNat hc k, letterFrom_upper_iff.mp (letterFrom_rotChar hc k)⟩
  · have hc : LetterFrom 0x61 c := letterFrom_lower_iff.mpr (isLower_iff.mpr hlower)
    exact ⟨rotChar_toNat hc k, letterFrom_lower_iff.mp (letterFrom_rotChar hc k)⟩

/-- Settles O48: the truncated remainder differs from the floored one by 0 or 26, which the second reduction removes. -/
theorem doubledReductionIsTheSingleOne : Obligations.DoubledReductionIsTheSingleOne := by
  intro c k x hupper hx
  have hrot : ((rotChar c k).toNat : Int) = 0x41 + x % 26 := by
    rw [hx]
    exact rotChar_toNat (letterFrom_upper_iff.mpr hupper) k
  rw [hrot]
  refine ⟨?_, ?_⟩
  · rw [Int.fmod_eq_emod_of_nonneg _ (by decide), Int.fmod_eq_emod_of_nonneg _ (by decide)]
    omega
  · have hinner : x.tmod 26 = x % 26 ∨ x.tmod 26 = x % 26 - 26 := by
      rw [Int.tmod_eq_emod]
      split <;> omega
    rw [Int.tmod_eq_emod_of_nonneg (by omega)]
    omega

/-- Settles O53: the sum is computed, and the response is the one `seedoffResponse_eq` writes for the offset 20. -/
theorem sourceSeedGivesTwenty : Obligations.SourceSeedGivesTwenty := by
  unfold Obligations.SourceSeedGivesTwenty
  intro codes
  have hsum : byteSum codes = 1658 := by decide
  have hoffset : seedOffset codes = 20 := by rw [seedOffset, hsum]; rfl
  refine ⟨hsum, hoffset, by omega, ?_⟩
  rw [exec_eq_next, responseTo, seedoffResponse_eq, hoffset]
  rfl

end Sys2Proof.Machine
end

section
/-! PROOFS. The decode order of the host (`46_laws_and_host_sequences.md` R181) as a chain of lines that bind, and that it
returns what the encode order was given (R184). -/

namespace Sys2Proof.Machine

theorem binds_unrot {env : Bindings} {a d : Operand} {x : List Byte} {k : Int} (ha : resolve env a = .ok (.int k))
    (hlo : -2147483647 ≤ k) (hhi : k ≤ 2147483647) (hd : resolve env d = .ok (.bytes x)) (hx : x.length ≤ 65535) :
    Binds env (.unrot a d) (.bytes (rotate x (-k))) := by
  refine ⟨_, expandLine_unrot.mpr
    ⟨k, offsetOperand_eq_ok.mpr ⟨ha, hlo, hhi⟩, x, dataOperand_eq_ok.mpr ⟨hd, hx⟩, rfl⟩, ?_⟩
  rw [boundValue, offsetValue_ofInt (by omega) (by omega)]

/-- The decode lines on a literal blob, from any bindings: each line takes off one layer (R181). -/
theorem decodeLines_runsTo (env : Bindings) (key : Key) {k : Int} {count : Nat} {blob : List Byte}
    (hlo : -2147483647 ≤ k) (hhi : k ≤ 2147483647) (hcount : count ≤ 4294967295) (hblob : blob.length ≤ 65535) :
    ∃ env', RunsTo (decodeLines (.lit (.int k)) key count (.lit (.bytes blob))) env env' ∧
      lookup nameS1 env' = some (.bytes (rotate (blockXor (splitXor (xorStream blob (deriveKeystream (quantize count)))
        Config.keyA Config.keyB) key) (-k))) := by
  have hrun : RunsTo (decodeLines (.lit (.int k)) key count (.lit (.bytes blob))) env _ :=
    .cons (binds_quant hcount) <|
    .cons (binds_ksgen rfl (quantize_lt hcount)) <|
    .cons (binds_xstream rfl rfl hblob) <|
    .cons (binds_splitxF rfl (by simpa using hblob)) <|
    .cons (binds_bxor rfl rfl (by simpa using hblob)) <|
    .cons (binds_unrot rfl hlo hhi rfl (by simpa using hblob)) <|
    .nil _
  exact ⟨_, hrun, lookup_cons_self _ _ _⟩

/-- The layers of the decode order undo those of the encode order, the last one first (R184). -/
theorem decodeLayers_encodeLayers (x : List Byte) (k : Int) (key ks : Key) (ka kb : Byte) :
    rotate (blockXor (splitXor (xorStream (xorStream (splitXor (blockXor (rotate x k) key) ka kb) ks) ks) ka kb) key) (-k)
      = x := by
  rw [xorStream_xorStream, splitXor_splitXor, blockXor_blockXor, rotate_rotate_cancel (by omega)]

/-- Settles O59: the decode lines see the other count only through its bucket, and so derive the keystream the blob was made
with; the layers then cancel. -/
theorem decodeOrderInvertsEncodeOrder : Obligations.DecodeOrderInvertsEncodeOrder := by
  intro key k c c' x hx hlo hhi hc hc' hbucket
  obtain ⟨_, hencode, hout⟩ := encodeLines_runsTo (env := []) (off := .lit (.int k)) key rfl (by omega) hhi hc hx
  obtain ⟨p, hp, rfl⟩ := hencode.run_start
  have hblob : (xorStream (splitXor (blockXor (rotate x k) key) Config.keyA Config.keyB)
      (deriveKeystream (quantize c))).length ≤ 65535 := by simpa using hx
  obtain ⟨_, hdecode, hs1⟩ := decodeLines_runsTo [] key hlo hhi hc' hblob
  obtain ⟨q, hq, rfl⟩ := hdecode.run_start
  rw [← hbucket, decodeLayers_encodeLayers] at hs1
  exact ⟨p, _, q, hp, hout, hq, hs1⟩

end Sys2Proof.Machine
end

section
/-! PROOFS. The causes of the error statuses (`60_exceptions.md` R203): what the conditions on a message's bytes say of the
command its opcode selects, and that the decoder refuses with a status, and the response carries it, exactly in that status's
cases. -/

namespace Sys2Proof

/-- No two statuses share a code (R202). -/
theorem Status.code_inj {st st' : Status} : st.code = st'.code ↔ st = st' := by
  cases st <;> cases st' <;> decide

end Sys2Proof

namespace Sys2Proof.Machine

/-- Byte 0 is legal exactly when it is one of the seven opcodes (R66, R69). -/
theorem legalOpcode_iff {m : Message} : LegalOpcode m ↔ ∃ op : Opcode, byteAt m 0 = op.code := by
  constructor
  · rintro ⟨hlo, hhi⟩
    have hne : Opcode.ofByte (byteAt m 0) ≠ none := fun h => by have := ofByte_eq_none.mp h; omega
    obtain ⟨op, hop⟩ := Option.ne_none_iff_exists'.mp hne
    exact ⟨op, ofByte_eq_some.mp hop⟩
  · rintro ⟨op, hop⟩
    rw [LegalOpcode, hop]
    cases op <;> decide

theorem ofByte_eq_none_iff_not_legalOpcode {m : Message} : Opcode.ofByte (byteAt m 0) = none ↔ ¬ LegalOpcode m := by
  rw [ofByte_eq_none]
  omega

section
variable {m : Message} {op : Opcode} (hop : byteAt m 0 = op.code)
include hop

theorem reservedClear_iff : ReservedClear m ↔ reservedNonzero op m = false := by
  have hsplitx : byteAt m 0 = 0x05 ↔ op = .splitx := by rw [hop]; cases op <;> decide
  rw [reservedNonzero_eq_false, ReservedClear, hsplitx]

theorem carriesData_iff : CarriesData m ↔ op.format.hasData = true := by
  rw [CarriesData, hop]
  cases op <;> decide

theorem fixedBytes_eq : fixedBytes m = op.format.fixedLength := by
  rw [fixedBytes, hop]
  cases op <;> rfl

end

/-- The table of R203, a row per error status; `decode_eq_error_iff_errorCause` ties it to the decoder. -/
def ErrorCause (m : Message) : Status → Prop
  | .ok => False
  | .illegalOpcode => 4 ≤ m.length ∧ ¬ LegalOpcode m
  | .reservedNonzero => 4 ≤ m.length ∧ LegalOpcode m ∧ ¬ ReservedClear m
  | .badLen => 4 ≤ m.length ∧ LegalOpcode m ∧ ReservedClear m ∧ CarriesData m ∧ 8 ≤ m.length ∧ 65535 < le32 m 4
  | .sizeMismatch => m.length < 4 ∨ (LegalOpcode m ∧ ReservedClear m ∧
      ((¬ CarriesData m ∧ m.length ≠ fixedBytes m) ∨ (CarriesData m ∧ m.length < 8) ∨
        (CarriesData m ∧ 8 ≤ m.length ∧ le32 m 4 ≤ 65535 ∧ m.length ≠ fixedBytes m + le32 m 4)))

/-- The decoder refuses with a status exactly in the cases of the status's row (R203): checks 1 and 2 by themselves, and
behind them checks 3 and 4 as conditions on the command byte 0 selects. -/
theorem decode_eq_error_iff_errorCause {m : Message} {st : Status} : decode m = .error st ↔ ErrorCause m st := by
  by_cases h4 : m.length < 4
  · cases st <;> simp [decode_eq_error, ErrorCause, h4, h4.not_ge]
  · have h4' : 4 ≤ m.length := Nat.le_of_not_lt h4
    by_cases hlegal : LegalOpcode m
    · obtain ⟨op, hop⟩ := legalOpcode_iff.mp hlegal
      have hofByte : Opcode.ofByte (byteAt m 0) = some op := ofByte_eq_some.mpr hop
      cases hres : reservedNonzero op m <;> cases st <;>
        simp [decode_eq_error, sizeError_eq_some, ErrorCause, h4, h4', eq_true hlegal, hofByte, hres, reservedClear_iff hop,
          carriesData_iff hop, fixedBytes_eq hop]
    · have hofByte := ofByte_eq_none_iff_not_legalOpcode.mpr hlegal
      cases st <;> simp [decode_eq_error, ErrorCause, h4, h4', hlegal, hofByte]

/-- Byte 1 of the response carries an error status exactly when the decoder refuses with it (R70, R202). -/
theorem respond_byteAt_one_eq_code {m : Message} {st : Status} (hst : st ≠ .ok) :
    byteAt (respond m) 1 = st.code ↔ decode m = .error st := by
  cases hdecode : decode m with
  | ok i =>
    rw [respond_of_decode_ok hdecode, responseTo_eq_okResponse, okResponse_byteAt_one, Status.code_inj]
    simp [hst.symm]
  | error st' =>
    have hbyte : byteAt (respond m) 1 = st'.code := by rw [respond_of_decode_error hdecode]; rfl
    simp [hbyte, Status.code_inj]

theorem respond_byteAt_one_of_decode_ok {m : Message} {i : Instr} (h : decode m = .ok i) :
    byteAt (respond m) 1 = 0x00 := by
  rw [respond_of_decode_ok h, responseTo_eq_okResponse, okResponse_byteAt_one]
  rfl

theorem respond_byteAt_one_iff_errorCause {m : Message} {st : Status} (hst : st ≠ .ok) :
    byteAt (respond m) 1 = st.code ↔ ErrorCause m st :=
  (respond_byteAt_one_eq_code hst).trans decode_eq_error_iff_errorCause

theorem respond_byteAt_one_of_no_errorCause {m : Message} (h : ∀ st, ¬ ErrorCause m st) :
    byteAt (respond m) 1 = 0x00 := by
  cases hdecode : decode m with
  | ok i => exact respond_byteAt_one_of_decode_ok hdecode
  | error st => exact absurd (decode_eq_error_iff_errorCause.mp hdecode) (h st)

/-- A response whose status is not 0 is the four bytes of the header (R204). -/
theorem respond_eq_header {m : Message} (h : byteAt (respond m) 1 ≠ 0x00) :
    respond m = [byteAt m 0, byteAt (respond m) 1, 0x00, 0x00] := by
  cases hdecode : decode m with
  | ok i => exact absurd (respond_byteAt_one_of_decode_ok hdecode) h
  | error st => rw [respond_of_decode_error hdecode]; rfl

end Sys2Proof.Machine
end

section
/-! PROOFS. The statements about error responses and their causes (`60_exceptions.md`). -/

namespace Sys2Proof.Machine

/-- Settles O25, by the table `ErrorCause`, of which each clause is a row. -/
theorem errorStatusHasExactlyTheseCauses : Obligations.ErrorStatusHasExactlyTheseCauses := fun _ =>
  ⟨respond_byteAt_one_iff_errorCause (st := .illegalOpcode) nofun,
    respond_byteAt_one_iff_errorCause (st := .reservedNonzero) nofun,
    respond_byteAt_one_iff_errorCause (st := .badLen) nofun,
    respond_byteAt_one_iff_errorCause (st := .sizeMismatch) nofun,
    respond_eq_header, step_cons _⟩

/-- Settles O26: the checks that passed and the first that fails are together a case of that status's row of R203, and when
none fails no row applies. The three examples are computed. -/
theorem firstFailedCheckDecidesTheStatus : Obligations.FirstFailedCheckDecidesTheStatus := by
  refine ⟨fun m => ?_, by decide, by decide, by decide⟩
  have hstatus {st : Status} (hst : st ≠ .ok) : ErrorCause m st → byteAt (respond m) 1 = st.code :=
    (respond_byteAt_one_iff_errorCause hst).mpr
  split_ifs with hshort hlegal hclear hfixed hlen hsize
  · exact hstatus (st := .sizeMismatch) nofun (.inl hshort)
  · exact hstatus (st := .sizeMismatch) nofun (.inr ⟨hlegal, hclear, hfixed.imp_right .inl⟩)
  · obtain ⟨hdata, hbad⟩ := hlen
    exact hstatus (st := .badLen) nofun ⟨by omega, hlegal, hclear, hdata, by omega, hbad⟩
  · obtain ⟨hdata, hne⟩ := hsize
    exact hstatus (st := .sizeMismatch) nofun
      (.inr ⟨hlegal, hclear, .inr (.inr ⟨hdata, by omega, by omega, hne⟩)⟩)
  · refine respond_byteAt_one_of_no_errorCause fun st => ?_
    cases st <;> simp only [ErrorCause] <;> tauto
  · exact hstatus (st := .reservedNonzero) nofun ⟨by omega, hlegal, hclear⟩
  · exact hstatus (st := .illegalOpcode) nofun ⟨by omega, hlegal⟩

/-- Settles O4: the step appends `respond` of the command, which is the error response of the status the decoder gave. -/
theorem malformedCommandGetsHeaderOnlyResponse : Obligations.MalformedCommandGetsHeaderOnlyResponse := by
  rintro ⟨c, r⟩ m rest st rfl hdecode
  refine ⟨ne_ok_of_decode_error hdecode, ?_⟩
  rw [step_cons, respond_of_decode_error hdecode]
  rfl

/-- Settles O8, by the two things a step can do. -/
theorem stepNeverStops : Obligations.StepNeverStops := fun s => by
  rcases step_cases s with ⟨-, hidle⟩ | ⟨m, rest, -, hnext⟩
  · exact ⟨s, hidle⟩
  · exact ⟨_, hnext⟩

end Sys2Proof.Machine
end

section
/-! PROOFS. The position key (`42_stream_xor.md` R120): each byte is the key at exactly the indices of one residue modulo
256. -/

namespace Sys2Proof.Machine

theorem positionKey_toNat (i : Nat) : (positionKey i).toNat = (i * 13 + 7) % 256 :=
  (BitVec.toNat_ofNat _ 8).trans (Nat.mod_mod _ 256)

/-- The multiplier 13 has the inverse 197 modulo 256 (`13 * 197 = 10 * 256 + 1`), and `197 * 7 + 157 = 6 * 256`. -/
theorem positionKey_eq_iff {i : Nat} {b : Byte} : positionKey i = b ↔ i % 256 = (b.toNat * 197 + 157) % 256 := by
  have hb : b.toNat < 256 := b.isLt
  rw [← BitVec.toNat_inj, positionKey_toNat]
  omega

theorem positionKey_add_period (i : Nat) : positionKey (i + 256) = positionKey i :=
  positionKey_eq_iff.mpr ((Nat.add_mod_right i 256).trans (positionKey_eq_iff.mp rfl))

/-- In any `n` consecutive indices each residue modulo `n` is met exactly once. -/
theorem existsUnique_mod_eq (start : Nat) {n r : Nat} (hr : r < n) : ∃! i, start ≤ i ∧ i < start + n ∧ i % n = r := by
  have hmem : r ∈ (Finset.Ico start (start + n)).image (· % n) := by
    rw [Nat.image_Ico_mod]
    exact Finset.mem_range.mpr hr
  obtain ⟨i, hi, hres⟩ := Finset.mem_image.mp hmem
  obtain ⟨hlo, hhi⟩ := Finset.mem_Ico.mp hi
  refine ⟨i, ⟨hlo, hhi, hres⟩, fun j ⟨hjlo, hjhi, hjres⟩ => ?_⟩
  exact Nat.mod_injOn_Ico start n (Finset.mem_Ico.mpr ⟨hjlo, hjhi⟩) hi (hjres.trans hres.symm)

end Sys2Proof.Machine
end

section
/-! PROOFS. The statements about the position key (`42_stream_xor.md` R120) and about the step on an empty command queue
(`60_exceptions.md`, log 1). -/

namespace Sys2Proof.Machine

/-- Settles O37: a window of 256 indices meets each residue modulo 256 once, hence also the one that yields the byte. The 21
listed values are computed. -/
theorem positionKeyTakesEachByteOncePerPeriod : Obligations.PositionKeyTakesEachByteOncePerPeriod := by
  refine ⟨positionKey_toNat, by decide, positionKey_add_period, fun start b => ?_⟩
  simp only [positionKey_eq_iff]
  exact existsUnique_mod_eq start (Nat.mod_lt _ (by decide))

/-- Settles O6, by the two things a step can do: the one that takes a command needs a queue that is not empty. -/
theorem stepOnEmptyQueueChangesNothing : Obligations.StepOnEmptyQueueChangesNothing := by
  intro s hempty
  rcases step_cases s with ⟨-, hidle⟩ | ⟨m, rest, hcons, -⟩
  · exact hidle
  · cases hempty.symm.trans hcons

end Sys2Proof.Machine
end
